-- ==== Sys2Proof/Word.lean ====
section
/-! DEFINITION. The word types of the CORE block and their plainest arithmetic (spec/00_scope.md R10, R11;
spec/10_state.md R20). Everything is unsigned. -/

namespace Sys2Proof

/-- One memory byte or general register: 8 bits, unsigned (R22, R40). -/
abbrev Byte := BitVec 8

/-- A 16-bit word: an opcode (R60), `PC`, `I` or a call-stack entry (R20). -/
abbrev Word := BitVec 16

/-- The 12-bit absolute address `nnn` of an opcode (R61, R63). -/
abbrev Addr := BitVec 12

/-- A 4-bit field that is a value, not a register: the sprite height `n` (R61). -/
abbrev Nibble := BitVec 4

/-- A register index 0..15 (R22): the fields `x` and `y` of R61, and the latch `WAIT_X` (R31). -/
abbrev Reg := Fin 16

end Sys2Proof
end

