-- ==== Sys2Proof/Syntax.lean ====
section
/-! DEFINITION. The instructions: one constructor per row of spec/opcode_table.json (spec/00_scope.md R2), with the
operand fields of spec/30_encoding.md R61 in the order the pattern has them; the formats of R62 and the spelling of R68. -/

namespace Sys2Proof

/-- The 34 instructions. A field's type is exactly its width in the opcode (R61), so every value of this type is an
instruction of the table. -/
inductive Instr where
  /-- 00E0 `CLS` (R131). -/
  | cls
  /-- 00EE `RET` (R90). -/
  | ret
  /-- 1nnn `JP nnn` (R91). -/
  | jp (nnn : Addr)
  /-- 2nnn `CALL nnn` (R92). -/
  | call (nnn : Addr)
  /-- 3xkk `SE Vx, kk` (R93). -/
  | seByte (x : Reg) (kk : Byte)
  /-- 4xkk `SNE Vx, kk` (R94). -/
  | sneByte (x : Reg) (kk : Byte)
  /-- 5xy0 `SE Vx, Vy` (R95). -/
  | seReg (x y : Reg)
  /-- 6xkk `LD Vx, kk` (R100). -/
  | ldByte (x : Reg) (kk : Byte)
  /-- 7xkk `ADD Vx, kk` (R101). -/
  | addByte (x : Reg) (kk : Byte)
  /-- 8xy0 `LD Vx, Vy` (R102). -/
  | ldReg (x y : Reg)
  /-- 8xy1 `OR Vx, Vy` (R105). -/
  | orReg (x y : Reg)
  /-- 8xy2 `AND Vx, Vy` (R106). -/
  | andReg (x y : Reg)
  /-- 8xy3 `XOR Vx, Vy` (R107). -/
  | xorReg (x y : Reg)
  /-- 8xy4 `ADD Vx, Vy` (R108). -/
  | addReg (x y : Reg)
  /-- 8xy5 `SUB Vx, Vy` (R109). -/
  | subReg (x y : Reg)
  /-- 8xy6 `SHR Vx` (R110); `y` is decoded and not read. -/
  | shr (x y : Reg)
  /-- 8xy7 `SUBN Vx, Vy` (R111). -/
  | subnReg (x y : Reg)
  /-- 8xyE `SHL Vx` (R112); `y` is decoded and not read. -/
  | shl (x y : Reg)
  /-- 9xy0 `SNE Vx, Vy` (R96). -/
  | sneReg (x y : Reg)
  /-- Annn `LD I, nnn` (R120). -/
  | ldI (nnn : Addr)
  /-- Bnnn `JP V0, nnn` (R97). -/
  | jpV0 (nnn : Addr)
  /-- Cxkk `RND Vx, kk` (R113). -/
  | rnd (x : Reg) (kk : Byte)
  /-- Dxyn `DRW Vx, Vy, n` (R132). -/
  | drw (x y : Reg) (n : Nibble)
  /-- Ex9E `SKP Vx` (R141). -/
  | skp (x : Reg)
  /-- ExA1 `SKNP Vx` (R142). -/
  | sknp (x : Reg)
  /-- Fx07 `LD Vx, DT` (R143). -/
  | ldVxDt (x : Reg)
  /-- Fx0A `LD Vx, K` (R145). -/
  | ldVxK (x : Reg)
  /-- Fx15 `LD DT, Vx` (R147). -/
  | ldDtVx (x : Reg)
  /-- Fx18 `LD ST, Vx` (R148). -/
  | ldStVx (x : Reg)
  /-- Fx1E `ADD I, Vx` (R121). -/
  | addI (x : Reg)
  /-- Fx29 `LD F, Vx` (R122). -/
  | ldF (x : Reg)
  /-- Fx33 `LD B, Vx` (R123). -/
  | ldB (x : Reg)
  /-- Fx55 `LD [I], Vx` (R124). -/
  | ldMemVx (x : Reg)
  /-- Fx65 `LD Vx, [I]` (R125). -/
  | ldVxMem (x : Reg)
  deriving DecidableEq, Repr

/-- The instruction formats of R62, named by the fields they use. -/
inductive Format where
  | fixed | nnn | xkk | xy0 | xyf | xyn | xf
  deriving DecidableEq, Repr

/-- The format of each instruction (R62). -/
def Instr.format : Instr → Format
  | .cls | .ret => .fixed
  | .jp _ | .call _ | .ldI _ | .jpV0 _ => .nnn
  | .seByte _ _ | .sneByte _ _ | .ldByte _ _ | .addByte _ _ | .rnd _ _ => .xkk
  | .seReg _ _ | .sneReg _ _ => .xy0
  | .ldReg _ _ | .orReg _ _ | .andReg _ _ | .xorReg _ _ | .addReg _ _ | .subReg _ _
  | .shr _ _ | .subnReg _ _ | .shl _ _ => .xyf
  | .drw _ _ _ => .xyn
  | .skp _ | .sknp _ | .ldVxDt _ | .ldVxK _ | .ldDtVx _ | .ldStVx _ | .addI _ | .ldF _ | .ldB _
  | .ldMemVx _ | .ldVxMem _ => .xf

/-- `Vx` as R68 writes a register: the letter V and the index in hex. -/
def regName (x : Reg) : String := "V" ++ (String.ofList (Nat.toDigits 16 x.val)).toUpper

/-- The readable spelling of R68, numbers in hex. A label only: the spec says it has no effect on semantics. -/
def Instr.spelling : Instr → String
  | .cls => "CLS"
  | .ret => "RET"
  | .jp nnn => "JP " ++ nnn.toHex
  | .call nnn => "CALL " ++ nnn.toHex
  | .seByte x kk => "SE " ++ regName x ++ ", " ++ kk.toHex
  | .sneByte x kk => "SNE " ++ regName x ++ ", " ++ kk.toHex
  | .seReg x y => "SE " ++ regName x ++ ", " ++ regName y
  | .ldByte x kk => "LD " ++ regName x ++ ", " ++ kk.toHex
  | .addByte x kk => "ADD " ++ regName x ++ ", " ++ kk.toHex
  | .ldReg x y => "LD " ++ regName x ++ ", " ++ regName y
  | .orReg x y => "OR " ++ regName x ++ ", " ++ regName y
  | .andReg x y => "AND " ++ regName x ++ ", " ++ regName y
  | .xorReg x y => "XOR " ++ regName x ++ ", " ++ regName y
  | .addReg x y => "ADD " ++ regName x ++ ", " ++ regName y
  | .subReg x y => "SUB " ++ regName x ++ ", " ++ regName y
  | .shr x _ => "SHR " ++ regName x
  | .subnReg x y => "SUBN " ++ regName x ++ ", " ++ regName y
  | .shl x _ => "SHL " ++ regName x
  | .sneReg x y => "SNE " ++ regName x ++ ", " ++ regName y
  | .ldI nnn => "LD I, " ++ nnn.toHex
  | .jpV0 nnn => "JP V0, " ++ nnn.toHex
  | .rnd x kk => "RND " ++ regName x ++ ", " ++ kk.toHex
  | .drw x y n => "DRW " ++ regName x ++ ", " ++ regName y ++ ", " ++ n.toHex
  | .skp x => "SKP " ++ regName x
  | .sknp x => "SKNP " ++ regName x
  | .ldVxDt x => "LD " ++ regName x ++ ", DT"
  | .ldVxK x => "LD " ++ regName x ++ ", K"
  | .ldDtVx x => "LD DT, " ++ regName x
  | .ldStVx x => "LD ST, " ++ regName x
  | .addI x => "ADD I, " ++ regName x
  | .ldF x => "LD F, " ++ regName x
  | .ldB x => "LD B, " ++ regName x
  | .ldMemVx x => "LD [I], " ++ regName x
  | .ldVxMem x => "LD " ++ regName x ++ ", [I]"

end Sys2Proof
end

