-- ==== Sys2Proof/WellFormed.lean ====
section
/-! DEFINITION. Well-formed instructions: every operand fits the opcode field that holds it (spec/30_encoding.md R61, R63).
The types of `Instr` already make it so (R67: no word of an instruction's pattern is reserved), so the check is stated over
the instruction's fields as numbers, where it can fail; `Laws.OperandsFit` proves it of every instruction. -/

namespace Sys2Proof

/-- An operand as a number beside the width of the opcode field that holds it. -/
structure Field where
  width : Nat
  value : Nat
  deriving DecidableEq, Repr

/-- The operand fits its field: no bit of it is lost in the opcode (R63: no operand is scaled, shifted or sign-extended). -/
def Field.fits (f : Field) : Bool := f.value < 2 ^ f.width

/-- A register field, `x` or `y` (R61). -/
def Field.reg (r : Nat) : Field := ⟨4, r⟩
/-- The address field `nnn` (R61). -/
def Field.addr (a : Nat) : Field := ⟨12, a⟩
/-- The byte field `kk` (R61). -/
def Field.byte (b : Nat) : Field := ⟨8, b⟩
/-- The nibble field `n` (R61). -/
def Field.nibble (n : Nat) : Field := ⟨4, n⟩

/-- The operand fields of an instruction, most significant first (R61, R62). -/
def Instr.fields : Instr → List Field
  | .cls | .ret => []
  | .jp nnn | .call nnn | .ldI nnn | .jpV0 nnn => [.addr nnn.toNat]
  | .seByte x kk | .sneByte x kk | .ldByte x kk | .addByte x kk | .rnd x kk => [.reg x.val, .byte kk.toNat]
  | .seReg x y | .sneReg x y | .ldReg x y | .orReg x y | .andReg x y | .xorReg x y | .addReg x y | .subReg x y
  | .shr x y | .subnReg x y | .shl x y => [.reg x.val, .reg y.val]
  | .drw x y n => [.reg x.val, .reg y.val, .nibble n.toNat]
  | .skp x | .sknp x | .ldVxDt x | .ldVxK x | .ldDtVx x | .ldStVx x | .addI x | .ldF x | .ldB x
  | .ldMemVx x | .ldVxMem x => [.reg x.val]

/-- Every operand fits its field. -/
def Instr.wellFormed (i : Instr) : Bool := i.fields.all Field.fits

end Sys2Proof
end

