-- ==== Sys2Proof/Decode.lean ====
section
/-! DEFINITION. Decoding (spec/30_encoding.md R60-R67) and, after it, the encoder written from the same patterns, and the
opcode table of spec/opcode_table.json as data. -/

namespace Sys2Proof

/-- `x = op[11:8]` (R61). -/
def fieldX (op : Word) : Reg := (op.extractLsb' 8 4).toFin

/-- `y = op[7:4]` (R61). -/
def fieldY (op : Word) : Reg := (op.extractLsb' 4 4).toFin

/-- `n = op[3:0]` (R61). -/
def fieldN (op : Word) : Nibble := op.extractLsb' 0 4

/-- `nnn = op[11:0]` (R61). -/
def fieldNnn (op : Word) : Addr := op.extractLsb' 0 12

/-- `kk = op[7:0]` (R61). -/
def fieldKk (op : Word) : Byte := op.extractLsb' 0 8

/-- `hi = op[15:12]`, the family nibble (R61). -/
def fieldHi (op : Word) : Nibble := op.extractLsb' 12 4

/-- What a 16-bit word decodes to: one of the 34 instructions, or UNKNOWN with the word (R64). -/
inductive Decoded where
  | instr (i : Instr)
  | unknown (op : Word)
  deriving DecidableEq, Repr

/-- Family 0x0: exactly 00E0 and 00EE (R64; spec/90_conflicts.md C5). -/
def decode0 (op : Word) : Decoded :=
  if op = 0x00E0 then .instr .cls
  else if op = 0x00EE then .instr .ret
  else .unknown op

/-- Families 0x5 and 0x9: the low nibble is 0 (R64; spec/90_conflicts.md C5). -/
def decodeXY0 (op : Word) (i : Instr) : Decoded :=
  if fieldN op = 0x0 then .instr i else .unknown op

/-- Family 0x8, by the function nibble n (R64). -/
def decode8 (op : Word) : Decoded :=
  match fieldN op with
  | 0x0#4 => .instr (.ldReg (fieldX op) (fieldY op))
  | 0x1#4 => .instr (.orReg (fieldX op) (fieldY op))
  | 0x2#4 => .instr (.andReg (fieldX op) (fieldY op))
  | 0x3#4 => .instr (.xorReg (fieldX op) (fieldY op))
  | 0x4#4 => .instr (.addReg (fieldX op) (fieldY op))
  | 0x5#4 => .instr (.subReg (fieldX op) (fieldY op))
  | 0x6#4 => .instr (.shr (fieldX op) (fieldY op))
  | 0x7#4 => .instr (.subnReg (fieldX op) (fieldY op))
  | 0xE#4 => .instr (.shl (fieldX op) (fieldY op))
  | _ => .unknown op

/-- Family 0xE, by kk (R64). -/
def decodeE (op : Word) : Decoded :=
  match fieldKk op with
  | 0x9E#8 => .instr (.skp (fieldX op))
  | 0xA1#8 => .instr (.sknp (fieldX op))
  | _ => .unknown op

/-- Family 0xF, by kk (R64). -/
def decodeF (op : Word) : Decoded :=
  match fieldKk op with
  | 0x07#8 => .instr (.ldVxDt (fieldX op))
  | 0x0A#8 => .instr (.ldVxK (fieldX op))
  | 0x15#8 => .instr (.ldDtVx (fieldX op))
  | 0x18#8 => .instr (.ldStVx (fieldX op))
  | 0x1E#8 => .instr (.addI (fieldX op))
  | 0x29#8 => .instr (.ldF (fieldX op))
  | 0x33#8 => .instr (.ldB (fieldX op))
  | 0x55#8 => .instr (.ldMemVx (fieldX op))
  | 0x65#8 => .instr (.ldVxMem (fieldX op))
  | _ => .unknown op

/-- `decode(op)` of R64, total on every 16-bit word. -/
def decode (op : Word) : Decoded :=
  match fieldHi op with
  | 0x0#4 => decode0 op
  | 0x1#4 => .instr (.jp (fieldNnn op))
  | 0x2#4 => .instr (.call (fieldNnn op))
  | 0x3#4 => .instr (.seByte (fieldX op) (fieldKk op))
  | 0x4#4 => .instr (.sneByte (fieldX op) (fieldKk op))
  | 0x5#4 => decodeXY0 op (.seReg (fieldX op) (fieldY op))
  | 0x6#4 => .instr (.ldByte (fieldX op) (fieldKk op))
  | 0x7#4 => .instr (.addByte (fieldX op) (fieldKk op))
  | 0x8#4 => decode8 op
  | 0x9#4 => decodeXY0 op (.sneReg (fieldX op) (fieldY op))
  | 0xA#4 => .instr (.ldI (fieldNnn op))
  | 0xB#4 => .instr (.jpV0 (fieldNnn op))
  | 0xC#4 => .instr (.rnd (fieldX op) (fieldKk op))
  | 0xD#4 => .instr (.drw (fieldX op) (fieldY op) (fieldN op))
  | 0xE#4 => decodeE op
  | _ => decodeF op

/-- Why a byte stream gives no instruction: it ends inside the two bytes of a word, or the word is UNKNOWN (R60, R66).
On the machine itself neither stops anything: memory never ends (R41) and an UNKNOWN word is skipped (R84). -/
inductive DecodeReject where
  | truncated
  | unknownWord (op : Word)
  deriving DecidableEq, Repr

/-- The two bytes of a word, the high byte first: `(hi << 8) | lo` (R42). -/
def wordOfBytes (hi lo : Byte) : Word := hi.setWidth 16 <<< 8 ||| lo.setWidth 16

/-- The high byte of a word, which memory holds at the lower address (R42). -/
def highByte (op : Word) : Byte := op.extractLsb' 8 8

/-- The low byte of a word, which memory holds at the higher address (R42). -/
def lowByte (op : Word) : Byte := op.extractLsb' 0 8

/-- Decode the front of a big-endian byte stream; a decoder always consumes exactly two bytes (R60). -/
def decodeBytes : List Byte → Except DecodeReject (Instr × List Byte)
  | hi :: lo :: rest =>
    match decode (wordOfBytes hi lo) with
    | .instr i => .ok (i, rest)
    | .unknown op => .error (.unknownWord op)
  | _ => .error .truncated

/-! ## The encoder (R62, and the "Encoding" line of each instruction's rule) -/

/-- A register index as a word: the bits of its 4-bit opcode field. -/
def regBits (x : Reg) : Word := BitVec.ofNat 16 x.val

/-- Format NNN: `family | nnn`. -/
def encNnn (family : Word) (nnn : Addr) : Word := family ||| nnn.setWidth 16

/-- Format XKK: `family | x << 8 | kk`; also format XF, whose kk is the function. -/
def encXkk (family : Word) (x : Reg) (kk : Byte) : Word := family ||| regBits x <<< 8 ||| kk.setWidth 16

/-- Formats XY0, XYF and XYN: `family | x << 8 | y << 4 | n`. -/
def encXyn (family : Word) (x y : Reg) (n : Nibble) : Word :=
  family ||| regBits x <<< 8 ||| regBits y <<< 4 ||| n.setWidth 16

/-- The word of an instruction. -/
def encode : Instr → Word
  | .cls => 0x00E0
  | .ret => 0x00EE
  | .jp nnn => encNnn 0x1000 nnn
  | .call nnn => encNnn 0x2000 nnn
  | .seByte x kk => encXkk 0x3000 x kk
  | .sneByte x kk => encXkk 0x4000 x kk
  | .seReg x y => encXyn 0x5000 x y 0x0
  | .ldByte x kk => encXkk 0x6000 x kk
  | .addByte x kk => encXkk 0x7000 x kk
  | .ldReg x y => encXyn 0x8000 x y 0x0
  | .orReg x y => encXyn 0x8000 x y 0x1
  | .andReg x y => encXyn 0x8000 x y 0x2
  | .xorReg x y => encXyn 0x8000 x y 0x3
  | .addReg x y => encXyn 0x8000 x y 0x4
  | .subReg x y => encXyn 0x8000 x y 0x5
  | .shr x y => encXyn 0x8000 x y 0x6
  | .subnReg x y => encXyn 0x8000 x y 0x7
  | .shl x y => encXyn 0x8000 x y 0xE
  | .sneReg x y => encXyn 0x9000 x y 0x0
  | .ldI nnn => encNnn 0xA000 nnn
  | .jpV0 nnn => encNnn 0xB000 nnn
  | .rnd x kk => encXkk 0xC000 x kk
  | .drw x y n => encXyn 0xD000 x y n
  | .skp x => encXkk 0xE000 x 0x9E
  | .sknp x => encXkk 0xE000 x 0xA1
  | .ldVxDt x => encXkk 0xF000 x 0x07
  | .ldVxK x => encXkk 0xF000 x 0x0A
  | .ldDtVx x => encXkk 0xF000 x 0x15
  | .ldStVx x => encXkk 0xF000 x 0x18
  | .addI x => encXkk 0xF000 x 0x1E
  | .ldF x => encXkk 0xF000 x 0x29
  | .ldB x => encXkk 0xF000 x 0x33
  | .ldMemVx x => encXkk 0xF000 x 0x55
  | .ldVxMem x => encXkk 0xF000 x 0x65

/-- The bytes of an instruction in memory order (R42). -/
def encodeBytes (i : Instr) : List Byte := [highByte (encode i), lowByte (encode i)]

/-! ## The opcode table as data -/

/-- A row of spec/opcode_table.json: the fixed bits (`mask`) and their value (`pattern`). -/
structure TableRow where
  mask : Word
  pattern : Word
  deriving DecidableEq, Repr

/-- The word has every fixed bit of the row. -/
def TableRow.covers (r : TableRow) (op : Word) : Bool := op &&& r.mask == r.pattern

/-- The table's row of each instruction. -/
def Instr.tableRow : Instr → TableRow
  | .cls => ⟨0xFFFF, 0x00E0⟩
  | .ret => ⟨0xFFFF, 0x00EE⟩
  | .jp _ => ⟨0xF000, 0x1000⟩
  | .call _ => ⟨0xF000, 0x2000⟩
  | .seByte _ _ => ⟨0xF000, 0x3000⟩
  | .sneByte _ _ => ⟨0xF000, 0x4000⟩
  | .seReg _ _ => ⟨0xF00F, 0x5000⟩
  | .ldByte _ _ => ⟨0xF000, 0x6000⟩
  | .addByte _ _ => ⟨0xF000, 0x7000⟩
  | .ldReg _ _ => ⟨0xF00F, 0x8000⟩
  | .orReg _ _ => ⟨0xF00F, 0x8001⟩
  | .andReg _ _ => ⟨0xF00F, 0x8002⟩
  | .xorReg _ _ => ⟨0xF00F, 0x8003⟩
  | .addReg _ _ => ⟨0xF00F, 0x8004⟩
  | .subReg _ _ => ⟨0xF00F, 0x8005⟩
  | .shr _ _ => ⟨0xF00F, 0x8006⟩
  | .subnReg _ _ => ⟨0xF00F, 0x8007⟩
  | .shl _ _ => ⟨0xF00F, 0x800E⟩
  | .sneReg _ _ => ⟨0xF00F, 0x9000⟩
  | .ldI _ => ⟨0xF000, 0xA000⟩
  | .jpV0 _ => ⟨0xF000, 0xB000⟩
  | .rnd _ _ => ⟨0xF000, 0xC000⟩
  | .drw _ _ _ => ⟨0xF000, 0xD000⟩
  | .skp _ => ⟨0xF0FF, 0xE09E⟩
  | .sknp _ => ⟨0xF0FF, 0xE0A1⟩
  | .ldVxDt _ => ⟨0xF0FF, 0xF007⟩
  | .ldVxK _ => ⟨0xF0FF, 0xF00A⟩
  | .ldDtVx _ => ⟨0xF0FF, 0xF015⟩
  | .ldStVx _ => ⟨0xF0FF, 0xF018⟩
  | .addI _ => ⟨0xF0FF, 0xF01E⟩
  | .ldF _ => ⟨0xF0FF, 0xF029⟩
  | .ldB _ => ⟨0xF0FF, 0xF033⟩
  | .ldMemVx _ => ⟨0xF0FF, 0xF055⟩
  | .ldVxMem _ => ⟨0xF0FF, 0xF065⟩

/-- The rows of spec/opcode_table.json, in the table's order. -/
def opcodeTable : List TableRow :=
  [⟨0xFFFF, 0x00E0⟩, ⟨0xFFFF, 0x00EE⟩, ⟨0xF000, 0x1000⟩, ⟨0xF000, 0x2000⟩, ⟨0xF000, 0x3000⟩, ⟨0xF000, 0x4000⟩,
   ⟨0xF00F, 0x5000⟩, ⟨0xF000, 0x6000⟩, ⟨0xF000, 0x7000⟩] ++
  [⟨0xF00F, 0x8000⟩, ⟨0xF00F, 0x8001⟩, ⟨0xF00F, 0x8002⟩, ⟨0xF00F, 0x8003⟩, ⟨0xF00F, 0x8004⟩, ⟨0xF00F, 0x8005⟩,
   ⟨0xF00F, 0x8006⟩, ⟨0xF00F, 0x8007⟩, ⟨0xF00F, 0x800E⟩] ++
  [⟨0xF00F, 0x9000⟩, ⟨0xF000, 0xA000⟩, ⟨0xF000, 0xB000⟩, ⟨0xF000, 0xC000⟩, ⟨0xF000, 0xD000⟩,
   ⟨0xF0FF, 0xE09E⟩, ⟨0xF0FF, 0xE0A1⟩] ++
  [⟨0xF0FF, 0xF007⟩, ⟨0xF0FF, 0xF00A⟩, ⟨0xF0FF, 0xF015⟩, ⟨0xF0FF, 0xF018⟩, ⟨0xF0FF, 0xF01E⟩, ⟨0xF0FF, 0xF029⟩,
   ⟨0xF0FF, 0xF033⟩, ⟨0xF0FF, 0xF055⟩, ⟨0xF0FF, 0xF065⟩]

/-! ## The host's view of a table row -/

/-- The 16-bit word that a table word `w` of `nbits` bits stands for: the bits above `nbits` are 0. -/
def tableWord (nbits w : Nat) : Word := BitVec.ofNat 16 (w % 2 ^ nbits)

/-- The instruction the decoder reads from the bytes of a table word, laid out as memory stores them. -/
def decodeTableWord (nbits w : Nat) : Option Instr :=
  match decodeBytes [highByte (tableWord nbits w), lowByte (tableWord nbits w)] with
  | .ok (i, _) => some i
  | .error _ => none

end Sys2Proof
end

