-- ==== Sys2Proof/Config.lean ====
section
/-! DEFINITION. The implementation parameters of spec/00_scope.md R9, the font table `FONT` of spec/20_memory.md R46,
and the one free value of the block: the random byte of Cxkk (R86, R113). -/

namespace Sys2Proof.Config

/-- `MEM_SIZE`: 4096 bytes, addresses 0x000-0xFFF (R9, R40). Every address is reduced modulo this (R41). -/
abbrev memSize : Nat := 4096

/-- `PROG_BASE`: where `loadRom` writes and where PC starts (R9, R25). -/
abbrev progBase : Nat := 0x200

/-- `MAX_ROM`: 4096 - 0x200 = 3584 bytes (R9, R171). -/
abbrev maxRom : Nat := memSize - progBase

/-- `FONT_BASE` (R9, R45). -/
abbrev fontBase : Nat := 0x050

/-- `FONT_SIZE`: 16 glyphs of 5 bytes (R9, R46). -/
abbrev fontSize : Nat := 80

/-- Bytes of one font glyph (R46): the factor of Fx29 (R122). -/
abbrev glyphSize : Nat := 5

/-- `STACK_DEPTH` (R9, R26). -/
abbrev stackDepth : Nat := 16

/-- `DISPLAY_W`: columns (R9, R28). -/
abbrev displayW : Nat := 64

/-- `DISPLAY_H`: rows (R9, R28). -/
abbrev displayH : Nat := 32

/-- `NUM_KEYS` (R9, R29). -/
abbrev numKeys : Nat := 16

/-- The default font, glyphs 0 to 7, as the table of R46 gives them. PRESUMED, unsafe: the spec marks the bytes as
general knowledge (log entry 2). -/
def fontLow : List Byte :=
  [0xF0, 0x90, 0x90, 0x90, 0xF0] ++
  [0x20, 0x60, 0x20, 0x20, 0x70] ++
  [0xF0, 0x10, 0xF0, 0x80, 0xF0] ++
  [0xF0, 0x10, 0xF0, 0x10, 0xF0] ++
  [0x90, 0x90, 0xF0, 0x10, 0x10] ++
  [0xF0, 0x80, 0xF0, 0x10, 0xF0] ++
  [0xF0, 0x80, 0xF0, 0x90, 0xF0] ++
  [0xF0, 0x10, 0x20, 0x40, 0x40]

/-- The default font, glyphs 8 to F, as the table of R46 gives them. PRESUMED, unsafe (log entry 2). -/
def fontHigh : List Byte :=
  [0xF0, 0x90, 0xF0, 0x90, 0xF0] ++
  [0xF0, 0x90, 0xF0, 0x10, 0xF0] ++
  [0xF0, 0x90, 0xF0, 0x90, 0x90] ++
  [0xE0, 0x90, 0xE0, 0x90, 0xE0] ++
  [0xF0, 0x80, 0x80, 0x80, 0xF0] ++
  [0xE0, 0x90, 0x90, 0x90, 0xE0] ++
  [0xF0, 0x80, 0xF0, 0x80, 0xF0] ++
  [0xF0, 0x80, 0xF0, 0x80, 0x80]

/-- The default value of the parameter `FONT` (R46). The machine's reset and `initialize` take any font as an argument
(`State.resetWith`, `Block.command`); this is the one of `State.reset`. -/
def font : Vector Byte fontSize := ⟨(fontLow ++ fontHigh).toArray, rfl⟩

/-- FREE VALUE. The byte the n-th random draw supplies: `rnd`, "a free draw of 0-255 with no law relating the draws of
different steps" (R86, R113). It has no body, so no proof can know a value of it or a relation between two of them
(log entry 1). -/
opaque randomByte : Nat → Byte

end Sys2Proof.Config
end

