-- ==== Sys2Proof/Machine/State.lean ====
section
/-! DEFINITION. The state of the core (spec/10_state.md R20), its value after reset (R35), and the reasons a step can stop. -/

namespace Sys2Proof.Machine

/-- `MODE` (R30): the key-wait state machine, and HALTED for a fatal error. -/
inductive Mode where
  /-- RUNNING: executes instructions normally. -/
  | running
  /-- AWAITING_KEY: instruction execution is suspended pending a key (R144, R149). -/
  | awaitingKey
  /-- HALTED: entered by a fatal error, left only by `initialize` (R85, R152). -/
  | halted
  deriving DecidableEq, Repr

/-- `HALT_REASON` (R32): `none` exactly when `MODE ≠ HALTED`. -/
inductive HaltReason where
  | none
  /-- 00EE on an empty stack (R153). -/
  | stackUnderflow
  /-- 2nnn on a full stack (R153). -/
  | stackOverflow
  deriving DecidableEq, Repr

/-- `MEM` (R34, R40) as the list of the bytes that differ from the reset contents, addresses strictly rising
(`Memory.wf`; log entry 3). What an unlisted address reads as is `Memory.background`. -/
abbrev Memory := List Host.Cell

/-- `FB` (R28): 32 rows of 64 one-bit pixels. -/
abbrev Display := Vector (Vector Bool Config.displayW) Config.displayH

/-- `KEYS` (R29): entry k is true when key k is down. -/
abbrev Keypad := Vector Bool Config.numKeys

/-- The state tuple of R20, and the model's own counter of random draws (log entry 1). -/
structure State where
  /-- `MEM[0..4095]` (R34). -/
  mem : Memory
  /-- `V[0..15]` (R22); VF is `V[15]`, the only flag (R23). -/
  v : Vector Byte 16
  /-- `I`, the index register (R24). -/
  i : Word
  /-- `PC` (R25). -/
  pc : Word
  /-- `STACK[0..15]` (R26); entries at index `SP` and above are unobservable. -/
  stack : Vector Word Config.stackDepth
  /-- `SP`, the depth count 0..16 (R26). -/
  sp : Fin (Config.stackDepth + 1)
  /-- `DT`, the delay timer (R27). -/
  dt : Byte
  /-- `ST`, the sound timer (R27). -/
  st : Byte
  /-- `FB`, the display buffer (R28). -/
  fb : Display
  /-- `KEYS`, the keypad snapshot (R29). -/
  keys : Keypad
  /-- `MODE` (R30). -/
  mode : Mode
  /-- `WAIT_X` (R31): the destination of the Fx0A that waits. -/
  waitX : Reg
  /-- `HALT_REASON` (R32). -/
  haltReason : HaltReason
  /-- The model's own: how many random bytes have been drawn; it selects the next free value
  `Config.randomByte` (log entry 1). -/
  draws : Nat
  deriving DecidableEq, Repr

/-- Why the machine stops with a fault. The spec gives the core no access fault, alignment fault, illegal-instruction
trap or panic (R41, R49, R67, R150), and a fatal error is a next state in HALTED (R83, R152), so there is none: no step
ever ends in one (log entry 5). Safe: nothing is claimed of a fault that cannot happen. -/
inductive Fault where
  deriving DecidableEq, Repr

/-- Why the model refuses. -/
inductive Refusal where
  /-- Raised by an arm of `exec` whose instruction has no meaning yet; safe. No arm raises it now. -/
  | notModelled (mnemonic : String)
  /-- Raised by `Block.command` for any command but `initialize` before the first `initialize` (R36); safe. No step of
  an initialised core raises it. -/
  | notInitialised
  deriving DecidableEq, Repr

/-- Every pixel 0 (R28). -/
def Display.clear : Display := Vector.replicate _ (Vector.replicate _ false)

/-- The state right after `initialize` (R35, R170), with the default font (R46). The stack entries and the draw counter are
the model's choice (DESIGN CHOICE, unsafe: log entries 4 and 1); every other value is the spec's. -/
def State.reset : State where
  mem := []
  v := Vector.replicate _ 0
  i := 0
  pc := 0x200
  stack := Vector.replicate _ 0
  sp := 0
  dt := 0
  st := 0
  fb := Display.clear
  keys := Vector.replicate _ false
  mode := .running
  waitX := 0
  haltReason := .none
  draws := 0

end Sys2Proof.Machine
end

