-- ==== Sys2Proof/Machine/Ops.lean ====
section
/-! DEFINITION. The named operations over memory, registers, the program counter, the call stack and the mode
(spec/10_state.md, spec/20_memory.md, spec/40_step_cycle.md). Every meaning is written over these. -/

namespace Sys2Proof.Machine

/-! ## Memory (R40-R45) -/

/-- What an address that `mem` does not list reads as: the reset contents of R45 with the default font of R46. -/
def Memory.background (a : Nat) : Byte :=
  if h : Config.fontBase ≤ a ∧ a < Config.fontBase + Config.fontSize then
    Config.font[a - Config.fontBase]'(by omega)
  else 0

/-- The byte the list gives an address, or its background. -/
def Memory.lookup : Memory → Nat → Byte
  | [], a => Memory.background a
  | (k, b) :: m, a => if k = a then b else Memory.lookup m a

/-- `MemRead(a, 1)`: the byte `MEM[a mod 4096]` (R12, R41). -/
def Memory.read (m : Memory) (a : Nat) : Byte := Memory.lookup m (a % Config.memSize)

/-- Put a byte into the list at its place, and keep the canonical form: a byte equal to the background is not listed. -/
def Memory.put : Memory → Nat → Byte → Memory
  | [], a, b => if b = Memory.background a then [] else [(a, b)]
  | (k, c) :: m, a, b =>
    if a < k then
      if b = Memory.background a then (k, c) :: m else (a, b) :: (k, c) :: m
    else if a = k then
      if b = Memory.background a then m else (a, b) :: m
    else (k, c) :: Memory.put m a b

/-- `MemWrite(a, 1, b)`: set `MEM[a mod 4096]` to `b` (R12, R41, R44). -/
def Memory.write (m : Memory) (a : Nat) (b : Byte) : Memory := Memory.put m (a % Config.memSize) b

/-- Write consecutive bytes upward from an address, each address modulo 4096 (R41). -/
def Memory.writeBytes (m : Memory) (a : Nat) : List Byte → Memory
  | [] => m
  | b :: bs => Memory.writeBytes (Memory.write m a b) (a + 1) bs

/-- The canonical form from address `lo` up: strictly rising addresses below 4096, and no byte equal to its background. -/
def Memory.wfFrom : Nat → Memory → Bool
  | _, [] => true
  | lo, (k, b) :: m =>
    decide (lo ≤ k) && decide (k < Config.memSize) && decide (b ≠ Memory.background k) && Memory.wfFrom (k + 1) m

/-- The canonical form of memory: equal memories are equal lists. -/
def Memory.wf (m : Memory) : Bool := Memory.wfFrom 0 m

/-! ## Registers (R22-R27) -/

/-- `V[x]`. -/
def State.getV (s : State) (x : Reg) : Byte := s.v[x.val]

/-- `V[x] <- b`. -/
def State.setV (s : State) (x : Reg) (b : Byte) : State := { s with v := s.v.set x.val b }

/-- The index of VF, `V[15]` (R22). -/
abbrev vf : Reg := 15

/-- Two writes in the order of R103: the flag to VF, then the result to `V[x]`, which survives when x = 0xF. -/
def State.setFlagThen (s : State) (x : Reg) (flag result : Byte) : State := (s.setV vf flag).setV x result

/-- A 12-bit address value in a 16-bit register: reduced modulo 4096 (R25, R114). -/
def wrap12 (n : Nat) : Word := BitVec.ofNat 16 (n % Config.memSize)

/-- `I <- w`. No mask beyond what each rule states (R24). -/
def State.setI (s : State) (w : Word) : State := { s with i := w }

/-- `PC <- n mod 4096`: "every write to PC is reduced mod 4096" (R25). -/
def State.setPc (s : State) (n : Nat) : State := { s with pc := wrap12 n }

/-- `DT <- b` (R27). -/
def State.setDt (s : State) (b : Byte) : State := { s with dt := b }

/-- `ST <- b` (R27). -/
def State.setSt (s : State) (b : Byte) : State := { s with st := b }

/-- `MEM <- m`. -/
def State.setMem (s : State) (m : Memory) : State := { s with mem := m }

/-- `FB <- fb`. -/
def State.setFb (s : State) (fb : Display) : State := { s with fb := fb }

/-- One more random byte has been drawn (log entry 1). -/
def State.countDraw (s : State) : State := { s with draws := s.draws + 1 }

/-! ## Fetch and the program counter (R42, R81, R98) -/

/-- The word at PC: `op = (MemRead(p, 1) << 8) | MemRead(p + 1, 1)` (R42). -/
def State.fetchWord (s : State) : Word :=
  wordOfBytes (Memory.read s.mem s.pc.toNat) (Memory.read s.mem (s.pc.toNat + 1))

/-- The pre-advance `PC <- (p + 2) mod 4096` (R81). A meaning is given the state at the start of the step and applies
this itself, so that Fx0A and a fatal error simply do not (R83, R145; log entry 8). -/
def State.advance (s : State) : State := s.setPc (s.pc.toNat + 2)

/-- A skip: two more, when the condition holds (R93, R98). -/
def State.skipIf (s : State) (c : Bool) : State := if c then s.setPc (s.pc.toNat + 2) else s

/-! ## The call stack (R26) -/

/-- `push(v)`; `none` when the stack is full. -/
def State.push (s : State) (w : Word) : Option State :=
  if h : s.sp.val < Config.stackDepth then
    some { s with stack := s.stack.set s.sp.val w, sp := ⟨s.sp.val + 1, by omega⟩ }
  else none

/-- `pop()`: the popped entry and the state after it; `none` when the stack is empty. -/
def State.pop (s : State) : Option (Word × State) :=
  if h : s.sp.val = 0 then none
  else some (s.stack[s.sp.val - 1]'(by have := s.sp.isLt; omega),
    { s with sp := ⟨s.sp.val - 1, by have := s.sp.isLt; omega⟩ })

/-! ## Fatal errors, and what clears them (R83, R152, R170) -/

/-- `raise Fatal(reason)`: taking the block's one kind of exception. It is given the state at the start of the step, so
none of the step's writes is kept, PC still addresses the faulting instruction, and only MODE and HALT_REASON change
(R83, R152). There is no vector and no saved register (R159). -/
def State.raiseFatal (s : State) (reason : HaltReason) : State :=
  { s with mode := .halted, haltReason := reason }

/-- Memory after `initialize` with the font `font`: 0 everywhere but the font at 0x050 (R45, R170). -/
def Memory.resetWith (font : Vector Byte Config.fontSize) : Memory :=
  Memory.writeBytes [] Config.fontBase font.toList

/-- The state after the first `initialize` of a block whose `FONT` is `font` (R35, R46, R170). -/
def State.resetWith (font : Vector Byte Config.fontSize) : State :=
  { State.reset with mem := Memory.resetWith font }

/-- `initialize()` on a core that has run: the one way out of HALTED, since no return from a fatal error exists (R159,
R170). The stack entries, which R170 does not write, stay (unobservable, log entry 4), and the draw counter is not rewound,
so that no draw is repeated (log entry 1). -/
def State.reinitialise (font : Vector Byte Config.fontSize) (s : State) : State :=
  { State.resetWith font with stack := s.stack, draws := s.draws }

/-! ## Steps that run no instruction (R84, R85, R146) and the entry into the key wait (R145) -/

/-- The unknown-opcode step: nothing but the pre-advance (R84, R154). -/
def State.unknownStep (s : State) : State := s.advance

/-- The halted step: no fetch, no write (R85). -/
def State.haltedStep (s : State) : State := s

/-- The entry of Fx0A: `PC <- p`, `WAIT_X <- x`, `MODE <- AWAITING_KEY`; the keypad is not examined (R145). -/
def State.beginWait (s : State) (x : Reg) : State := { s with waitX := x, mode := .awaitingKey }

/-- The end of a key wait: `V[WAIT_X] <- k0`, `MODE <- RUNNING`, PC past the Fx0A (R146). -/
def State.endWait (s : State) (k : Fin Config.numKeys) : State :=
  { (s.setV s.waitX (BitVec.ofNat 8 k.val)).advance with mode := .running }

end Sys2Proof.Machine
end

