-- ==== Sys2Proof/Machine/Operands.lean ====
section
/-! DEFINITION. Operand forms: what an instruction reads and addresses, as values (spec/30_encoding.md R63,
spec/43_index_memory.md R126, spec/44_display.md R130-R133, spec/45_timers_keys.md R140). -/

namespace Sys2Proof.Machine

/-- The i-th register of the run V0..Vx of Fx55 and Fx65 (R124, R125). -/
def nthReg (i : Nat) : Reg := Fin.ofNat 16 i

/-- The address `I + k`, before the reduction every access makes (R126, R41). -/
def State.indexed (s : State) (k : Nat) : Nat := s.i.toNat + k

/-- The address of font glyph `b`: `0x050 + b * 5`, with no mask on `b` (R122). -/
def glyphAddress (b : Byte) : Nat := Config.fontBase + b.toNat * Config.glyphSize

/-- The hundreds digit `v div 100` (R123). -/
def bcdHundreds (b : Byte) : Byte := BitVec.ofNat 8 (b.toNat / 100)

/-- The tens digit `(v div 10) mod 10` (R123). -/
def bcdTens (b : Byte) : Byte := BitVec.ofNat 8 (b.toNat / 10 % 10)

/-- The ones digit `v mod 10` (R123). -/
def bcdOnes (b : Byte) : Byte := BitVec.ofNat 8 (b.toNat % 10)

/-- `keyDown(v) = (v ≤ 0xF) and KEYS[v]`: a value above 0xF names no key and reads as up (R140). -/
def keyDown (keys : Keypad) (b : Byte) : Bool :=
  if h : b.toNat < Config.numKeys then keys[b.toNat] else false

/-- The least key that is down: "lowest index wins" (R146). -/
def lowestKey (keys : Keypad) : Option (Fin Config.numKeys) :=
  (List.finRange Config.numKeys).find? (fun k => keys[k.val])

/-- The key-wait step: end the wait if a key is down, else nothing (R146). -/
def State.keyWaitStep (s : State) : State :=
  match lowestKey s.keys with
  | some k => s.endWait k
  | none => s

/-- A display row, modulo 32 (R130). -/
def wrapRow (r : Nat) : Fin Config.displayH := ⟨r % Config.displayH, Nat.mod_lt _ (by decide)⟩

/-- A display column, modulo 64 (R130). -/
def wrapCol (c : Nat) : Fin Config.displayW := ⟨c % Config.displayW, Nat.mod_lt _ (by decide)⟩

/-- `FB[r][c]` (R28). -/
def Display.pixel (fb : Display) (r : Fin Config.displayH) (c : Fin Config.displayW) : Bool := fb[r.val][c.val]

/-- `FB[r][c] <- FB[r][c] ^ 1` (R132). -/
def Display.flip (fb : Display) (r : Fin Config.displayH) (c : Fin Config.displayW) : Display :=
  fb.set r.val (fb[r.val].set c.val (!fb[r.val][c.val]))

/-- Bit `7 - col` of a sprite byte: bit 7 is the leftmost pixel (R132, R133). -/
def spriteBit (byte : Byte) (col : Nat) : Bool := byte.getLsbD (7 - col)

/-- What a draw carries along: the buffer and the collision flag (R132). -/
structure Drawing where
  fb : Display
  collision : Bool
  deriving DecidableEq, Repr

/-- One pixel of a sprite row: if the sprite's bit is set, note a collision and flip the pixel (R132). -/
def drawPixel (cx cy row : Nat) (byte : Byte) (d : Drawing) (col : Nat) : Drawing :=
  if spriteBit byte col then
    ⟨d.fb.flip (wrapRow (cy + row)) (wrapCol (cx + col)),
      d.collision || d.fb.pixel (wrapRow (cy + row)) (wrapCol (cx + col))⟩
  else d

/-- One row of a sprite: its eight columns, left to right (R132). -/
def drawRow (cx cy row : Nat) (byte : Byte) (d : Drawing) : Drawing :=
  (List.range 8).foldl (drawPixel cx cy row byte) d

/-- The whole sprite: `n` bytes upward from `base` (R132, R133). -/
def drawSprite (m : Memory) (base cx cy n : Nat) (fb : Display) : Drawing :=
  (List.range n).foldl (fun d row => drawRow cx cy row (Memory.read m (base + row)) d) ⟨fb, false⟩

end Sys2Proof.Machine
end

