-- ==== Sys2Proof/Machine/Flags.lean ====
section
/-! DEFINITION. Every flag computation of the block: the values VF receives, each from the operands as they were before
the instruction (spec/42_alu.md R104, R108-R112, R114; spec/44_display.md R132), and the 8-bit results beside them. -/

namespace Sys2Proof.Machine

/-- VF is 1 or 0. -/
def flagByte (b : Bool) : Byte := if b then 1 else 0

/-- 8xy4: carry out of bit 7, `a + b > 255` (R108). -/
def carryFlag (a b : Byte) : Byte := flagByte (decide (a.toNat + b.toNat > 255))

/-- 8xy5 and 8xy7: NOT borrow, minuend ≥ subtrahend (R109, R111). -/
def notBorrowFlag (minuend subtrahend : Byte) : Byte := flagByte (decide (minuend.toNat ≥ subtrahend.toNat))

/-- 8xy6: bit 0 of the operand before the shift (R110). -/
def shrFlag (a : Byte) : Byte := a &&& 0x01

/-- 8xyE: bit 7 of the operand before the shift (R112). -/
def shlFlag (a : Byte) : Byte := (a >>> 7) &&& 0x01

/-- Dxyn: any pixel went from 1 to 0 during the whole draw (R132). -/
def collisionFlag (collision : Bool) : Byte := flagByte collision

/-- `(a + b) mod 256` (R114). -/
def sum8 (a b : Byte) : Byte := BitVec.ofNat 8 ((a.toNat + b.toNat) % 256)

/-- `(a - b) mod 256`, the non-negative remainder (R11, R114). -/
def diff8 (a b : Byte) : Byte := BitVec.ofInt 8 (((a.toNat : Int) - (b.toNat : Int)) % 256)

end Sys2Proof.Machine
end

