-- ==== Sys2Proof/Machine/Alu.lean ====
section
/-! DEFINITION. Register loads, the 8-bit ALU and the random byte (spec/42_alu.md). Operands are read from the state at
the start of the step (spec/00_scope.md R12). -/

namespace Sys2Proof.Machine

/-- 6xkk `LD Vx, kk` (R100). -/
def execLdByte (x : Reg) (kk : Byte) (s : State) : Host.Outcome State Fault Refusal :=
  .next (s.advance.setV x kk)

/-- 7xkk `ADD Vx, kk` (R101): no flag. -/
def execAddByte (x : Reg) (kk : Byte) (s : State) : Host.Outcome State Fault Refusal :=
  .next (s.advance.setV x (sum8 (s.getV x) kk))

/-- 8xy0 `LD Vx, Vy` (R102). -/
def execLdReg (x y : Reg) (s : State) : Host.Outcome State Fault Refusal :=
  .next (s.advance.setV x (s.getV y))

/-- 8xy1 `OR Vx, Vy` (R105): no flag. -/
def execOrReg (x y : Reg) (s : State) : Host.Outcome State Fault Refusal :=
  .next (s.advance.setV x (s.getV x ||| s.getV y))

/-- 8xy2 `AND Vx, Vy` (R106): no flag. -/
def execAndReg (x y : Reg) (s : State) : Host.Outcome State Fault Refusal :=
  .next (s.advance.setV x (s.getV x &&& s.getV y))

/-- 8xy3 `XOR Vx, Vy` (R107): no flag. -/
def execXorReg (x y : Reg) (s : State) : Host.Outcome State Fault Refusal :=
  .next (s.advance.setV x (s.getV x ^^^ s.getV y))

/-- 8xy4 `ADD Vx, Vy` (R108): VF = carry. -/
def execAddReg (x y : Reg) (s : State) : Host.Outcome State Fault Refusal :=
  .next (s.advance.setFlagThen x (carryFlag (s.getV x) (s.getV y)) (sum8 (s.getV x) (s.getV y)))

/-- 8xy5 `SUB Vx, Vy` (R109): VF = NOT borrow. -/
def execSubReg (x y : Reg) (s : State) : Host.Outcome State Fault Refusal :=
  .next (s.advance.setFlagThen x (notBorrowFlag (s.getV x) (s.getV y)) (diff8 (s.getV x) (s.getV y)))

/-- 8xy6 `SHR Vx` (R110): reads V[x]; y is not read. -/
def execShr (x _y : Reg) (s : State) : Host.Outcome State Fault Refusal :=
  .next (s.advance.setFlagThen x (shrFlag (s.getV x)) (s.getV x >>> 1))

/-- 8xy7 `SUBN Vx, Vy` (R111): VF = NOT borrow of V[y] - V[x]. -/
def execSubnReg (x y : Reg) (s : State) : Host.Outcome State Fault Refusal :=
  .next (s.advance.setFlagThen x (notBorrowFlag (s.getV y) (s.getV x)) (diff8 (s.getV y) (s.getV x)))

/-- 8xyE `SHL Vx` (R112): reads V[x]; y is not read. -/
def execShl (x _y : Reg) (s : State) : Host.Outcome State Fault Refusal :=
  .next (s.advance.setFlagThen x (shlFlag (s.getV x)) (s.getV x <<< 1))

/-- The effect of Cxkk when the step's random byte is `r`: `V[x] <- rnd & kk` (R113). -/
def rndEffect (r : Byte) (x : Reg) (kk : Byte) (s : State) : State := s.advance.setV x (r &&& kk)

/-- Cxkk `RND Vx, kk` (R113): the random byte is the next free value, and the draw is counted (log entry 1). -/
def execRnd (x : Reg) (kk : Byte) (s : State) : Host.Outcome State Fault Refusal :=
  .next (rndEffect (Config.randomByte s.draws) x kk s).countDraw

end Sys2Proof.Machine
end

