-- ==== Sys2Proof/Machine/Control.lean ====
section
/-! DEFINITION. Control transfer and skips (spec/41_control.md). Each meaning is given the state at the start of the step
(PC = p) and answers the state at its end. -/

namespace Sys2Proof.Machine

/-- 00EE `RET` (R90): `PC <- pop()`; on an empty stack the fatal error StackUnderflow. -/
def execRet (s : State) : Host.Outcome State Fault Refusal :=
  match s.advance.pop with
  | some (w, t) => .next (t.setPc w.toNat)
  | none => .next (s.raiseFatal .stackUnderflow)

/-- 1nnn `JP nnn` (R91). -/
def execJp (nnn : Addr) (s : State) : Host.Outcome State Fault Refusal :=
  .next (s.advance.setPc nnn.toNat)

/-- 2nnn `CALL nnn` (R92): push the pre-advanced PC, then jump; on a full stack the fatal error StackOverflow. -/
def execCall (nnn : Addr) (s : State) : Host.Outcome State Fault Refusal :=
  match s.advance.push s.advance.pc with
  | some t => .next (t.setPc nnn.toNat)
  | none => .next (s.raiseFatal .stackOverflow)

/-- 3xkk `SE Vx, kk` (R93). -/
def execSeByte (x : Reg) (kk : Byte) (s : State) : Host.Outcome State Fault Refusal :=
  .next (s.advance.skipIf (s.getV x == kk))

/-- 4xkk `SNE Vx, kk` (R94). -/
def execSneByte (x : Reg) (kk : Byte) (s : State) : Host.Outcome State Fault Refusal :=
  .next (s.advance.skipIf (s.getV x != kk))

/-- 5xy0 `SE Vx, Vy` (R95). -/
def execSeReg (x y : Reg) (s : State) : Host.Outcome State Fault Refusal :=
  .next (s.advance.skipIf (s.getV x == s.getV y))

/-- 9xy0 `SNE Vx, Vy` (R96). -/
def execSneReg (x y : Reg) (s : State) : Host.Outcome State Fault Refusal :=
  .next (s.advance.skipIf (s.getV x != s.getV y))

/-- Bnnn `JP V0, nnn` (R97): always V0, modulo 4096. -/
def execJpV0 (nnn : Addr) (s : State) : Host.Outcome State Fault Refusal :=
  .next (s.advance.setPc (nnn.toNat + (s.getV 0).toNat))

end Sys2Proof.Machine
end

