-- ==== Sys2Proof/Machine/Graphics.lean ====
section
/-! DEFINITION. Clear and draw (spec/44_display.md). -/

namespace Sys2Proof.Machine

/-- 00E0 `CLS` (R131): every pixel 0; VF is not written. -/
def execCls (s : State) : Host.Outcome State Fault Refusal :=
  .next (s.advance.setFb Display.clear)

/-- The draw of Dxyn from the state at the start of the step: the coordinates are read before VF is written (R132). -/
def drawing (s : State) (x y : Reg) (n : Nibble) : Drawing :=
  drawSprite s.mem s.i.toNat (s.getV x).toNat (s.getV y).toNat n.toNat s.fb

/-- Dxyn `DRW Vx, Vy, n` (R132): XOR the sprite, then `VF <- collision`. -/
def execDrw (x y : Reg) (n : Nibble) (s : State) : Host.Outcome State Fault Refusal :=
  .next ((s.advance.setFb (drawing s x y n).fb).setV vf (collisionFlag (drawing s x y n).collision))

end Sys2Proof.Machine
end

