-- ==== Sys2Proof/Machine/IndexMemory.lean ====
section
/-! DEFINITION. The index register and memory transfer (spec/43_index_memory.md). I is never updated by an access (R126). -/

namespace Sys2Proof.Machine

/-- Annn `LD I, nnn` (R120): zero-extended. -/
def execLdI (nnn : Addr) (s : State) : Host.Outcome State Fault Refusal :=
  .next (s.advance.setI (nnn.setWidth 16))

/-- Fx1E `ADD I, Vx` (R121): modulo 4096, no flag. -/
def execAddI (x : Reg) (s : State) : Host.Outcome State Fault Refusal :=
  .next (s.advance.setI (wrap12 (s.i.toNat + (s.getV x).toNat)))

/-- Fx29 `LD F, Vx` (R122): no mask on V[x]. -/
def execLdF (x : Reg) (s : State) : Host.Outcome State Fault Refusal :=
  .next (s.advance.setI (BitVec.ofNat 16 (glyphAddress (s.getV x))))

/-- The three stores of Fx33, hundreds, tens and ones at I, I + 1, I + 2 (R123). -/
def storeBcd (s : State) (b : Byte) : Memory :=
  Memory.writeBytes s.mem (s.indexed 0) [bcdHundreds b, bcdTens b, bcdOnes b]

/-- Fx33 `LD B, Vx` (R123). -/
def execLdB (x : Reg) (s : State) : Host.Outcome State Fault Refusal :=
  .next (s.advance.setMem (storeBcd s (s.getV x)))

/-- The stores of Fx55: V[i] at I + i for i = 0..count-1 (R124). -/
def storeRegs (s : State) (count : Nat) : Memory :=
  Memory.writeBytes s.mem (s.indexed 0) ((List.range count).map fun i => s.getV (nthReg i))

/-- Fx55 `LD [I], Vx` (R124): V0..Vx, x + 1 registers. -/
def execLdMemVx (x : Reg) (s : State) : Host.Outcome State Fault Refusal :=
  .next (s.advance.setMem (storeRegs s (x.val + 1)))

/-- The loads of Fx65: V[i] from I + i for i = 0..count-1 (R125). -/
def loadRegs (s : State) (count : Nat) : State :=
  (List.range count).foldl (fun t i => t.setV (nthReg i) (Memory.read s.mem (s.indexed i))) s

/-- Fx65 `LD Vx, [I]` (R125): V0..Vx, x + 1 registers. -/
def execLdVxMem (x : Reg) (s : State) : Host.Outcome State Fault Refusal :=
  .next (loadRegs s.advance (x.val + 1))

end Sys2Proof.Machine
end

