-- ==== Sys2Proof/Machine/TimersKeys.lean ====
section
/-! DEFINITION. Keypad skips, timer reads and writes, and the entry of the key wait (spec/45_timers_keys.md). The key-wait
step itself is `State.keyWaitStep` (R146). -/

namespace Sys2Proof.Machine

/-- Ex9E `SKP Vx` (R141). -/
def execSkp (x : Reg) (s : State) : Host.Outcome State Fault Refusal :=
  .next (s.advance.skipIf (keyDown s.keys (s.getV x)))

/-- ExA1 `SKNP Vx` (R142). -/
def execSknp (x : Reg) (s : State) : Host.Outcome State Fault Refusal :=
  .next (s.advance.skipIf (!keyDown s.keys (s.getV x)))

/-- Fx07 `LD Vx, DT` (R143). -/
def execLdVxDt (x : Reg) (s : State) : Host.Outcome State Fault Refusal :=
  .next (s.advance.setV x s.dt)

/-- Fx0A `LD Vx, K` (R145): the entry step; PC stays p. -/
def execLdVxK (x : Reg) (s : State) : Host.Outcome State Fault Refusal :=
  .next (s.beginWait x)

/-- Fx15 `LD DT, Vx` (R147). -/
def execLdDtVx (x : Reg) (s : State) : Host.Outcome State Fault Refusal :=
  .next (s.advance.setDt (s.getV x))

/-- Fx18 `LD ST, Vx` (R148). -/
def execLdStVx (x : Reg) (s : State) : Host.Outcome State Fault Refusal :=
  .next (s.advance.setSt (s.getV x))

end Sys2Proof.Machine
end

