-- ==== Sys2Proof/Machine/Step.lean ====
section
/-! DEFINITION. The `step` command with the random byte drawn from the free values (spec/40_step_cycle.md R80), and how a
word is placed for it to run. -/

namespace Sys2Proof.Machine

/-- One `step`, chosen by MODE (R80). RUNNING: fetch, decode, and run the instruction or skip an UNKNOWN word. A meaning
is given the state at the start of the step and makes the pre-advance itself (R81, R83). -/
def step (s : State) : Host.Outcome State Fault Refusal :=
  match s.mode with
  | .halted => .next s.haltedStep
  | .awaitingKey => .next s.keyWaitStep
  | .running =>
    match decode s.fetchWord with
    | .instr i => exec i s
    | .unknown _ => .next s.unknownStep

/-- The state in which the very next step runs the table word `w` of `nbits` bits: the word stored big-endian at PC
(R42), and the core RUNNING with no halt reason, since only a RUNNING step fetches (R80). It stands for the `loadRom` of
the host (log entry 7). -/
def State.withFetchWord (s : State) (nbits w : Nat) : State :=
  { s with
    mem := Memory.writeBytes s.mem s.pc.toNat [highByte (tableWord nbits w), lowByte (tableWord nbits w)]
    mode := .running
    haltReason := .none }

end Sys2Proof.Machine
end

