-- ==== Sys2Proof/Machine/Commands.lean ====
section
/-! DEFINITION. The block's interface: the host commands of spec/00_scope.md R6, each one atomic transition (R7), and the
results and outputs of a step (spec/60_exceptions.md R151, spec/40_step_cycle.md R87). -/

namespace Sys2Proof.Machine

/-! ## Results of a step (R151) -/

/-- What a `step` returns (R151). -/
inductive StepResult where
  | executed
  | waiting
  | unknown (op : Word)
  | fatal (reason : HaltReason)
  deriving DecidableEq, Repr

/-- The numeric code of R151; `fatal none` is no result of the table (log entry 8). -/
def StepResult.code : StepResult → Option Nat
  | .executed => some 0
  | .waiting => some 1
  | .unknown _ => some 2
  | .fatal .stackUnderflow => some 3
  | .fatal .stackOverflow => some 4
  | .fatal .none => none

/-- The result of a step from `s` that ended in `t` (R151): HALTED after it says Fatal (R83, R85), AWAITING_KEY after it says
Waiting (R145, R146), and RUNNING after it says Executed, unless a RUNNING step fetched an UNKNOWN word (R84). -/
def stepResult (s t : State) : StepResult :=
  match t.mode with
  | .halted => .fatal t.haltReason
  | .awaitingKey => .waiting
  | .running =>
    match s.mode with
    | .running =>
      match decode s.fetchWord with
      | .unknown op => .unknown op
      | .instr _ => .executed
    | _ => .executed

/-- The fetched opcode a step outputs: none unless the step is RUNNING (R87). -/
def stepOpcode (s : State) : Option Word :=
  match s.mode with
  | .running => some s.fetchWord
  | _ => none

/-- `step(rnd)` with the random byte supplied by the host (R6, R80): Cxkk reads it, every other step ignores it (R86). -/
def stepWith (rnd : Byte) (s : State) : Host.Outcome State Fault Refusal :=
  match s.mode, decode s.fetchWord with
  | .running, .instr (.rnd x kk) => .next (rndEffect rnd x kk s)
  | _, _ => step s

/-! ## Timers, keypad, display and sound (R160-R163) -/

/-- One timer at a tick: never below 0 (R27, R160). -/
def tickTimer (b : Byte) : Byte := if b.toNat > 0 then b - 1 else b

/-- `tick60Hz()` (R160): both timers, unless the core awaits a key. -/
def State.tick60Hz (s : State) : State :=
  match s.mode with
  | .awaitingKey => s
  | _ => (s.setDt (tickTimer s.dt)).setSt (tickTimer s.st)

/-- `setKeys(keyState)` (R162): accepted in every mode. -/
def State.setKeys (s : State) (keys : Keypad) : State := { s with keys := keys }

/-- `isSoundActive`: `ST > 0` (R161). -/
def State.isSoundActive (s : State) : Bool := decide (s.st.toNat > 0)

/-- `getDisplay`: the current buffer (R163). -/
def State.getDisplay (s : State) : Display := s.fb

/-- `awaitingKey`: `MODE = AWAITING_KEY` (R30, R164). -/
def State.awaitingKey (s : State) : Bool := decide (s.mode = .awaitingKey)

/-! ## ROM loading (R171) -/

/-- What `loadRom` returns (R6). -/
inductive LoadResult where
  | ok
  | tooLarge
  deriving DecidableEq, Repr

/-- `loadRom(bytes)` (R155, R171): reject an over-long ROM before writing anything; else write exactly the given bytes
from 0x200 upward, in any mode. -/
def State.loadRom (s : State) (bytes : List Byte) : LoadResult × State :=
  if bytes.length > Config.maxRom then (.tooLarge, s)
  else (.ok, s.setMem (Memory.writeBytes s.mem Config.progBase bytes))

/-! ## The command interface (R6) -/

/-- A host command with its inputs (R6). -/
inductive Command where
  | init
  | loadRom (bytes : List Byte)
  | step (rnd : Byte)
  | tick60Hz
  | setKeys (keys : Keypad)
  | getDisplay
  | isSoundActive
  | awaitingKey
  deriving DecidableEq, Repr

/-- A command's outputs (R6). -/
inductive Reply where
  | none
  | loaded (r : LoadResult)
  | stepped (result : StepResult) (opcode : Option Word)
  | display (fb : Display)
  | soundActive (b : Bool)
  | awaiting (b : Bool)
  deriving DecidableEq, Repr

/-- The block: before its first `initialize` its state is unspecified (R36). -/
inductive Block where
  | uninitialised
  | ready (s : State)
  deriving DecidableEq, Repr

/-- The reply of a `step` from `s`, and the block after it. -/
def stepReply (s : State) : Host.Outcome State Fault Refusal → Host.Outcome (Block × Reply) Fault Refusal
  | .next t => .next (.ready t, .stepped (stepResult s t) (stepOpcode s))
  | .fault r => .fault r
  | .refused r => .refused r

/-- A command on an initialised core (R6, R7). `font` is the block's constant FONT (R46). -/
def State.command (font : Vector Byte Config.fontSize) (c : Command) (s : State) :
    Host.Outcome (Block × Reply) Fault Refusal :=
  match c with
  | .init => .next (.ready (s.reinitialise font), .none)
  | .loadRom bytes => .next (.ready (s.loadRom bytes).2, .loaded (s.loadRom bytes).1)
  | .step rnd => stepReply s (stepWith rnd s)
  | .tick60Hz => .next (.ready s.tick60Hz, .none)
  | .setKeys keys => .next (.ready (s.setKeys keys), .none)
  | .getDisplay => .next (.ready s, .display s.getDisplay)
  | .isSoundActive => .next (.ready s, .soundActive s.isSoundActive)
  | .awaitingKey => .next (.ready s, .awaiting s.awaitingKey)

/-- A command on the block: before the first `initialize` every other command is refused (R36). -/
def Block.command (font : Vector Byte Config.fontSize) (c : Command) (b : Block) :
    Host.Outcome (Block × Reply) Fault Refusal :=
  match b, c with
  | .ready s, c => s.command font c
  | .uninitialised, .init => .next (.ready (State.resetWith font), .none)
  | .uninitialised, _ => .refused .notInitialised

/-- A host's run: commands in any order it chooses, with any interleaving of steps and ticks (R7), and their replies. -/
def Block.run (font : Vector Byte Config.fontSize) : List Command → Block →
    Host.Outcome (Block × List Reply) Fault Refusal
  | [], b => .next (b, [])
  | c :: cs, b =>
    match b.command font c with
    | .next (b', r) =>
      match Block.run font cs b' with
      | .next (b'', rs) => .next (b'', r :: rs)
      | .fault e => .fault e
      | .refused e => .refused e
    | .fault e => .fault e
    | .refused e => .refused e

end Sys2Proof.Machine
end

