-- ==== Sys2Proof/Safety.lean ====
section
/-! DEFINITION. What counts as a legal state and a safe run (spec/10_state.md R37; spec/93_implementation_defined.md rows
13 and 14), and which elements the spec lets an instruction write (spec/10_state.md R22-R32, spec/20_memory.md R43). -/

namespace Sys2Proof.Machine

/-- The ranges of R37 that the types of `State` do not already give (`SP ≤ 16`, the bytes and the register index are types),
and the canonical form of memory. -/
structure State.Legal (s : State) : Prop where
  pc_le : s.pc.toNat ≤ 0xFFF
  i_le : s.i.toNat ≤ 0xFFF
  stack_le : ∀ j : Fin Config.stackDepth, j.val < s.sp.val → s.stack[j.val].toNat ≤ 0xFFF
  reason_none_iff : s.haltReason = .none ↔ s.mode ≠ .halted
  mem_wf : Memory.wf s.mem = true

/-- A block that is initialised is in a legal state. -/
def Block.Legal : Block → Prop
  | .uninitialised => True
  | .ready s => s.Legal

/-- Not HALTED: a halted state is never a good final state (spec/93, row 14). -/
def State.Live (s : State) : Prop := s.mode ≠ .halted

/-- Waiting with no key down: every step returns Waiting and changes nothing, so a run that stays here is a hang, never
a final state (R146; spec/93, row 13). -/
def State.Hung (s : State) : Prop := s.mode = .awaitingKey ∧ lowestKey s.keys = none

/-- A reply that reports a fatal error (R151). -/
def Reply.isFatal : Reply → Bool
  | .stepped (.fatal _) _ => true
  | _ => false

/-- A safe run: every command is answered and none reports a fatal error. -/
def SafeRun (font : Vector Byte Config.fontSize) (cs : List Command) (b : Block) : Prop :=
  ∃ b' rs, Block.run font cs b = .next (b', rs) ∧ ∀ r ∈ rs, r.isFatal = false

/-- The general registers an instruction may write: its destination x, VF for the six flag writers of R23, and V0..Vx for
Fx65 (R23, R125). -/
def writesV (i : Instr) (r : Reg) : Bool :=
  match i with
  | .ldByte x _ | .addByte x _ | .ldReg x _ | .orReg x _ | .andReg x _ | .xorReg x _ | .rnd x _ | .ldVxDt x => r == x
  | .addReg x _ | .subReg x _ | .shr x _ | .subnReg x _ | .shl x _ => r == x || r == vf
  | .drw _ _ _ => r == vf
  | .ldVxMem x => decide (r.val ≤ x.val)
  | .cls | .ret | .jp _ | .call _ | .seByte _ _ | .sneByte _ _ | .seReg _ _ | .sneReg _ _ | .ldI _ | .jpV0 _ | .skp _
  | .sknp _ | .ldVxK _ | .ldDtVx _ | .ldStVx _ | .addI _ | .ldF _ | .ldB _ | .ldMemVx _ => false

/-- How many bytes an instruction stores, from `I` upward modulo 4096: three for Fx33, x + 1 for Fx55, and none for any
other (R43, R123, R124). -/
def storedBytes (i : Instr) : Nat :=
  match i with
  | .ldB _ => 3
  | .ldMemVx x => x.val + 1
  | .cls | .ret | .jp _ | .call _ | .seByte _ _ | .sneByte _ _ | .seReg _ _ | .ldByte _ _ | .addByte _ _ | .ldReg _ _
  | .orReg _ _ | .andReg _ _ | .xorReg _ _ | .addReg _ _ | .subReg _ _ | .shr _ _ | .subnReg _ _ | .shl _ _ | .sneReg _ _
  | .ldI _ | .jpV0 _ | .rnd _ _ | .drw _ _ _ | .skp _ | .sknp _ | .ldVxDt _ | .ldVxK _ | .ldDtVx _ | .ldStVx _ | .addI _
  | .ldF _ | .ldVxMem _ => 0

/-- The instructions that write PC beyond the pre-advance, or withdraw it: jumps, call, return, skips and Fx0A (R82, R98,
R145). -/
def touchesPc (i : Instr) : Bool :=
  match i with
  | .ret | .jp _ | .call _ | .seByte _ _ | .sneByte _ _ | .seReg _ _ | .sneReg _ _ | .jpV0 _ | .skp _ | .sknp _
  | .ldVxK _ => true
  | .cls | .ldByte _ _ | .addByte _ _ | .ldReg _ _ | .orReg _ _ | .andReg _ _ | .xorReg _ _ | .addReg _ _ | .subReg _ _
  | .shr _ _ | .subnReg _ _ | .shl _ _ | .ldI _ | .rnd _ _ | .drw _ _ _ | .ldVxDt _ | .ldDtVx _ | .ldStVx _ | .addI _
  | .ldF _ | .ldB _ | .ldMemVx _ | .ldVxMem _ => false

/-- The pixel (r, c) is under a set bit of the sprite of `n` rows at `base`, drawn at column `cx` and row `cy` with both
coordinates wrapping (R130, R132, R133): row `r` is `dr` below `cy`, column `c` is `dc` right of `cx`, and bit `7 - dc` of
byte `dr` is 1. -/
def spriteCovers (m : Memory) (base cx cy n : Nat) (r : Fin Config.displayH) (c : Fin Config.displayW) : Bool :=
  let dr := (r.val + 32 - cy % 32) % 32
  let dc := (c.val + 64 - cx % 64) % 64
  decide (dr < n) && decide (dc < 8) && (Memory.read m (base + dr)).getLsbD (7 - dc)

/-- A command that reads only: the three outputs of R6. -/
def Command.readsOnly : Command → Bool
  | .getDisplay | .isSoundActive | .awaitingKey => true
  | .init | .loadRom _ | .step _ | .tick60Hz | .setKeys _ => false

/-- A command that lets time pass without new input: a step, a tick or a read (R6). -/
def Command.givesNoInput : Command → Bool
  | .step _ | .tick60Hz | .getDisplay | .isSoundActive | .awaitingKey => true
  | .init | .loadRom _ | .setKeys _ => false

end Sys2Proof.Machine
end

