-- ==== Sys2Proof/Certificates/Slice0/Obligations.lean ====
section
/-! DEFINITION. The statements for the provers. Each says which rule of spec/ it formalises; rule numbers are those of
spec/. A meaning is given the state at the start of the step (PC = p) and makes the pre-advance itself (log entry 8), so
`exec i s` is the whole RUNNING step of `i`. -/

open Sys2Proof Sys2Proof.Machine

/-! ## Encoding (spec/30_encoding.md) -/

/-- R60, R61, R64: decoding the word of any instruction gives the instruction back, with every operand; and at the front
of a byte stream exactly its two bytes are consumed. -/
def Obligations.DecodeAfterEncode : Prop :=
  ∀ (i : Instr) (rest : List Byte),
    decode (encode i) = .instr i ∧ decodeBytes (encodeBytes i ++ rest) = .ok (i, rest)

/-- R64: a word that decodes to an instruction is that instruction's word: no two words are one instruction. -/
def Obligations.EncodeAfterDecode : Prop :=
  ∀ (op : Word) (i : Instr), decode op = .instr i → encode i = op

/-- R66: which words are UNKNOWN, family by family, in the numeric fields of the word. -/
def Obligations.UnknownWordsByFamily : Prop :=
  ∀ op : Word, (decode op = .unknown op ↔
    (op.toNat / 4096 = 0x0 ∧ op.toNat ≠ 0x00E0 ∧ op.toNat ≠ 0x00EE) ∨
    ((op.toNat / 4096 = 0x5 ∨ op.toNat / 4096 = 0x9) ∧ op.toNat % 16 ≠ 0) ∨
    (op.toNat / 4096 = 0x8 ∧ op.toNat % 16 ∈ [0x8, 0x9, 0xA, 0xB, 0xC, 0xD, 0xF]) ∨
    (op.toNat / 4096 = 0xE ∧ op.toNat % 256 ∉ [0x9E, 0xA1]) ∨
    (op.toNat / 4096 = 0xF ∧
      op.toNat % 256 ∉ [0x07, 0x0A, 0x15, 0x18, 0x1E, 0x29, 0x33, 0x55, 0x65]))

/-- R64: the rows of the opcode table decide decoding. A word with every fixed bit of a row decodes to that row's
instruction (so no two rows overlap), and a word that no row fits is UNKNOWN. -/
def Obligations.TableRowsDecideDecoding : Prop :=
  ∀ op : Word,
    (∀ r ∈ opcodeTable, r.covers op = true → ∃ i, decode op = .instr i ∧ i.tableRow = r) ∧
    ((∀ r ∈ opcodeTable, r.covers op = false) → decode op = .unknown op)

/-- Words written out from the patterns of R64, and what each is. -/
def Obligations.SampleWordsDecode : Prop :=
  decode 0x00E0 = .instr .cls ∧ decode 0x2210 = .instr (.call 0x210) ∧ decode 0x8124 = .instr (.addReg 1 2) ∧
  decode 0xAABB = .instr (.ldI 0xABB) ∧ decode 0xD018 = .instr (.drw 0 1 8) ∧ decode 0xE19E = .instr (.skp 1) ∧
  decode 0xF265 = .instr (.ldVxMem 2) ∧ decode 0x5121 = .unknown 0x5121

/-! ## The step (spec/40_step_cycle.md, spec/60_exceptions.md) -/

/-- R42, R80: a RUNNING step whose two bytes at PC (the second address modulo 4096) decode to `i` is `exec i`; the word
is fetched big-endian and is the step's opcode output (R87). -/
def Obligations.RunningStepRunsDecodedInstruction : Prop :=
  ∀ (s : State) (i : Instr), s.mode = .running →
    decode ((Memory.read s.mem s.pc.toNat).setWidth 16 <<< 8 |||
      (Memory.read s.mem ((s.pc.toNat + 1) % 4096)).setWidth 16) = .instr i →
    step s = exec i s ∧
    stepOpcode s = some ((Memory.read s.mem s.pc.toNat).setWidth 16 <<< 8 |||
      (Memory.read s.mem ((s.pc.toNat + 1) % 4096)).setWidth 16)

/-- R84: an UNKNOWN word writes nothing beyond the pre-advance, the result is Unknown(op), and the word is the step's opcode
output (R87). -/
def Obligations.UnknownWordIsSkipped : Prop :=
  ∀ (s : State) (op : Word), s.mode = .running → decode s.fetchWord = .unknown op →
    step s = .next { s with pc := BitVec.ofNat 16 ((s.pc.toNat + 2) % 4096) } ∧
    stepResult s { s with pc := BitVec.ofNat 16 ((s.pc.toNat + 2) % 4096) } = .unknown s.fetchWord ∧
    stepOpcode s = some s.fetchWord

/-- R85: a halted step fetches nothing, writes nothing and returns Fatal(HALT_REASON) again, and no command but
`initialize` leaves HALTED. -/
def Obligations.HaltIsSticky : Prop :=
  ∀ (s : State), s.mode = .halted →
    (∀ rnd, stepWith rnd s = .next s) ∧ step s = .next s ∧
    stepResult s s = .fatal s.haltReason ∧ stepOpcode s = none ∧
    (∀ font c b r, c ≠ Command.init → s.command font c = .next (b, r) →
      ∃ t, b = .ready t ∧ t.mode = .halted ∧ t.haltReason = s.haltReason) ∧
    (∀ font, ∃ t, s.command font .init = .next (.ready t, .none) ∧ t.mode = .running)

/-- R146: the key-wait step. The lowest key that is down goes to V[WAIT_X], MODE becomes RUNNING and PC passes the Fx0A;
with no key down nothing is written. Nothing is fetched and `rnd` is ignored. -/
def Obligations.KeyWaitStepTakesLowestKey : Prop :=
  ∀ (s : State) (rnd : Byte), s.mode = .awaitingKey →
    stepOpcode s = none ∧
    (∀ k : Fin 16, s.keys[k.val] = true → (∀ j : Fin 16, j < k → s.keys[j.val] = false) →
      ∃ t, stepWith rnd s = .next t ∧ step s = .next t ∧ stepResult s t = .executed ∧
        t = { s with
                     v := s.v.set s.waitX.val (BitVec.ofNat 8 k.val), mode := .running,
                     pc := BitVec.ofNat 16 ((s.pc.toNat + 2) % 4096) }) ∧
    ((∀ k : Fin 16, s.keys[k.val] = false) →
      stepWith rnd s = .next s ∧ step s = .next s ∧ stepResult s s = .waiting)

/-- R41, R49, R67, R153: nothing an initialised core is asked to do ends in a fault or a refusal, whatever its state: not
an instruction, not a step, not a command. -/
def Obligations.NothingEverStops : Prop :=
  (∀ (i : Instr) (s : State), ∃ t, exec i s = .next t) ∧
  (∀ s : State, ∃ t, step s = .next t) ∧
  (∀ font c s, ∃ t r, State.command font c s = .next (.ready t, r))

/-- R37: the ranges and the link between HALT_REASON and MODE, with the canonical form of memory, survive every step. -/
def Obligations.StepKeepsLegal : Prop :=
  ∀ s t : State, s.Legal → step s = .next t → t.Legal

/-- R37: they survive every run of host commands, in any order and interleaving (R7), with any font. -/
def Obligations.EveryCommandRunKeepsLegal : Prop :=
  ∀ font (cs : List Command) (b b' : Block) (rs : List Reply),
    b.Legal → Block.run font cs b = .next (b', rs) → b'.Legal

/-- R35, R37: the state after `initialize` is legal, whatever the font; so is State.reset, and so is a block that has
never been initialised. -/
def Obligations.ResetIsLegal : Prop :=
  State.reset.Legal ∧ (∀ font, (State.resetWith font).Legal) ∧ Block.uninitialised.Legal

/-- R86, R113: `rnd` is read by Cxkk alone. A RUNNING step of Cxkk writes rnd & kk for every rnd the host gives; every
other step ignores it. The model's `step` is the step whose rnd is the next free value, and it counts the draw (log entry 1). -/
def Obligations.RandomByteReadOnlyByRnd : Prop :=
  ∀ (s : State) (rnd rnd' : Byte),
    (∀ x kk, s.mode = .running → decode s.fetchWord = .instr (.rnd x kk) →
      stepWith rnd s = .next { s with
                                      v := s.v.set x.val (rnd &&& kk),
                                      pc := BitVec.ofNat 16 ((s.pc.toNat + 2) % 4096) } ∧
      step s = .next { s with
                              v := s.v.set x.val (Config.randomByte s.draws &&& kk), draws := s.draws + 1,
                              pc := BitVec.ofNat 16 ((s.pc.toNat + 2) % 4096) }) ∧
    ((¬ (s.mode = .running ∧ ∃ x kk, decode s.fetchWord = .instr (.rnd x kk))) →
      stepWith rnd s = stepWith rnd' s ∧ stepWith rnd s = step s)

/-- R151: when each result of a step is returned, said in the state before the step, and its numeric code; code 0, Executed,
is every other step. It holds of the model's step and of the step with any byte of the host's, and the command `step(rnd)`
of R6 replies with that result and with the opcode output of R87. The premise rules out only states outside the ranges of
R37 (HALTED with no reason, log entry 8); it is an invariant (`StepKeepsLegal`). -/
def Obligations.StepResultTable : Prop :=
  ∀ font (rnd : Byte) (s t : State), s.Legal → (step s = .next t ∨ stepWith rnd s = .next t) →
    (stepResult s t = .waiting ↔
      (s.mode = .running ∧ ∃ x, decode s.fetchWord = .instr (.ldVxK x)) ∨
      (s.mode = .awaitingKey ∧ ∀ k : Fin 16, s.keys[k.val] = false)) ∧
    (∀ op, stepResult s t = .unknown op ↔ s.mode = .running ∧ decode s.fetchWord = .unknown op) ∧
    (stepResult s t = .fatal .stackUnderflow ↔
      (s.mode = .running ∧ decode s.fetchWord = .instr .ret ∧ s.sp.val = 0) ∨
      (s.mode = .halted ∧ s.haltReason = .stackUnderflow)) ∧
    (stepResult s t = .fatal .stackOverflow ↔
      (s.mode = .running ∧ (∃ nnn, decode s.fetchWord = .instr (.call nnn)) ∧ s.sp.val = 16) ∨
      (s.mode = .halted ∧ s.haltReason = .stackOverflow)) ∧
    (∃ n, (stepResult s t).code = some n ∧ n ≤ 4) ∧
    ((stepResult s t).code = some 1 ↔ stepResult s t = .waiting) ∧
    ((stepResult s t).code = some 2 ↔ ∃ op, stepResult s t = .unknown op) ∧
    ((stepResult s t).code = some 3 ↔ stepResult s t = .fatal .stackUnderflow) ∧
    ((stepResult s t).code = some 4 ↔ stepResult s t = .fatal .stackOverflow) ∧
    (s.mode = .running → stepOpcode s = some s.fetchWord) ∧
    (s.mode ≠ .running → stepOpcode s = none) ∧
    (stepWith rnd s = .next t →
      s.command font (.step rnd) = .next (.ready t, .stepped (stepResult s t) (stepOpcode s)))

/-- R30: every change of MODE by a step. Only Fx0A enters AWAITING_KEY, only a key that is down leaves it, and only a fatal
step enters HALTED; no step leaves HALTED. -/
def Obligations.OnlyNamedEventsChangeMode : Prop :=
  ∀ s t : State, step s = .next t → t.mode ≠ s.mode →
    (s.mode = .running ∧ t.mode = .awaitingKey ∧
      ∃ x, decode s.fetchWord = .instr (.ldVxK x) ∧ t.waitX = x ∧ t.pc = s.pc) ∨
    (s.mode = .awaitingKey ∧ t.mode = .running ∧ ∃ k : Fin 16, s.keys[k.val] = true) ∨
    (s.mode = .running ∧ t.mode = .halted ∧
      ((decode s.fetchWord = .instr .ret ∧ s.sp.val = 0) ∨
        (∃ nnn, decode s.fetchWord = .instr (.call nnn) ∧ s.sp.val = 16)))

/-- R153: the fatal causes, and no other instruction can raise one. In a fatal step no write is kept, PC still addresses
the instruction, and HALT_REASON records the cause. -/
def Obligations.FatalCausesAreExactlyTwo : Prop :=
  ∀ (i : Instr) (s t : State), s.mode = .running → exec i s = .next t →
    (t.mode = .halted ↔ (i = .ret ∧ s.sp.val = 0) ∨ (∃ nnn, i = .call nnn ∧ s.sp.val = 16)) ∧
    (i = .ret → s.sp.val = 0 → t = { s with mode := .halted, haltReason := .stackUnderflow }) ∧
    (∀ nnn, i = .call nnn → s.sp.val = 16 → t = { s with mode := .halted, haltReason := .stackOverflow })

/-! ## Frames over all instructions -/

/-- R23, R43, R103: no general register changes but the instruction's destinations: x, VF for the six flag writers, and
V0..Vx for Fx65 (`writesV`). -/
def Obligations.OnlyDestinationRegistersChange : Prop :=
  ∀ (i : Instr) (s t : State) (r : Reg), exec i s = .next t → writesV i r = false → t.getV r = s.getV r

/-- R43: no byte of memory changes but the three of Fx33 and the x + 1 of Fx55, from I upward modulo 4096
(`storedBytes`, applied to the I of the state the meaning stores from); a step that runs no instruction changes none. -/
def Obligations.OnlyStoredBytesChange : Prop :=
  (∀ (i : Instr) (s t : State) (a : Nat), exec i s = .next t →
    (∀ k, k < storedBytes i → a % 4096 ≠ s.indexed k % 4096) → Memory.read t.mem a = Memory.read s.mem a) ∧
  (∀ s t : State, (s.mode ≠ .running ∨ decode s.fetchWord = .unknown s.fetchWord) → step s = .next t → t.mem = s.mem)

/-- R24 to R33: every other element of the state changes only by the instructions its rule names. KEYS by none. -/
def Obligations.EachElementChangesOnlyByItsWriters : Prop :=
  ∀ (i : Instr) (s t : State), exec i s = .next t →
    (t.i = s.i ∨ (∃ n, i = .ldI n) ∨ (∃ x, i = .addI x) ∨ (∃ x, i = .ldF x)) ∧
    ((t.stack = s.stack ∧ t.sp = s.sp) ∨ i = .ret ∨ (∃ n, i = .call n)) ∧
    (t.dt = s.dt ∨ ∃ x, i = .ldDtVx x) ∧
    (t.st = s.st ∨ ∃ x, i = .ldStVx x) ∧
    (t.fb = s.fb ∨ i = .cls ∨ ∃ x y n, i = .drw x y n) ∧
    t.keys = s.keys ∧
    (t.waitX = s.waitX ∨ ∃ x, i = .ldVxK x) ∧
    ((t.mode = s.mode ∧ t.haltReason = s.haltReason) ∨ (∃ x, i = .ldVxK x) ∨ i = .ret ∨ (∃ n, i = .call n)) ∧
    (i = .ret → t.stack = s.stack) ∧
    (∀ x, i = .ldVxK x → t.haltReason = s.haltReason) ∧
    (t.draws = s.draws ∨ ∃ x kk, i = .rnd x kk)

/-- R25, R82: every instruction that neither transfers control, skips nor waits leaves PC at p + 2 modulo 4096, and PC never
leaves 0x000-0xFFF after a step that moved it. -/
def Obligations.StraightLineInstructionsAdvancePc : Prop :=
  ∀ (i : Instr) (s t : State), exec i s = .next t →
    (touchesPc i = false → t.pc = BitVec.ofNat 16 ((s.pc.toNat + 2) % 4096)) ∧
    (t.pc = s.pc ∨ t.pc.toNat ≤ 0xFFF)

/-! ## Control transfer and skips (spec/41_control.md) -/

/-- R90: the encoding; a return takes the top entry to PC (modulo 4096) and lowers SP; on an empty stack it is the fatal error
StackUnderflow, with no write kept. -/
def Obligations.ReturnPopsOrHalts : Prop :=
  decode 0x00EE = .instr .ret ∧
  (∀ (s : State) (j : Fin 16), s.sp = j.succ →
    exec .ret s = .next { s with pc := BitVec.ofNat 16 (s.stack[j.val].toNat % 4096), sp := j.castSucc }) ∧
  (∀ s : State, s.sp = 0 → exec .ret s = .next { s with mode := .halted, haltReason := .stackUnderflow })

/-- R91: the encoding, and `PC <- nnn`. -/
def Obligations.JumpSetsPc : Prop :=
  ∀ (nnn : Addr) (s : State),
    decode (0x1000 ||| nnn.setWidth 16) = .instr (.jp nnn) ∧
    exec (.jp nnn) s = .next { s with pc := nnn.setWidth 16 }

/-- R92: the encoding; a call pushes p + 2 (modulo 4096) and jumps; on a full stack it is the fatal error StackOverflow,
with no write kept. -/
def Obligations.CallPushesOrHalts : Prop :=
  ∀ (nnn : Addr) (s : State),
    decode (0x2000 ||| nnn.setWidth 16) = .instr (.call nnn) ∧
    (∀ j : Fin 16, s.sp = j.castSucc →
      exec (.call nnn) s = .next { s with
        stack := s.stack.set j.val (BitVec.ofNat 16 ((s.pc.toNat + 2) % 4096)), sp := j.succ,
        pc := nnn.setWidth 16 }) ∧
    (s.sp.val = 16 → exec (.call nnn) s = .next { s with mode := .halted, haltReason := .stackOverflow })

/-- R26, R92: after a call that had room, a return at the callee goes to the instruction after the call, with SP as before. -/
def Obligations.ReturnUndoesCall : Prop :=
  ∀ (nnn : Addr) (s t : State), s.sp.val < 16 → exec (.call nnn) s = .next t →
    ∃ u, exec .ret t = .next u ∧ u.pc = BitVec.ofNat 16 ((s.pc.toNat + 2) % 4096) ∧ u.sp = s.sp ∧
      u = { s with pc := u.pc, stack := u.stack } ∧
      ∀ j : Fin 16, j.val < s.sp.val → u.stack[j.val] = s.stack[j.val]

/-- R93, R94: the encodings; 3xkk skips one word exactly when V[x] = kk, 4xkk exactly when V[x] ≠ kk. -/
def Obligations.SkipsOnImmediate : Prop :=
  ∀ (x : Reg) (kk : Byte) (s : State),
    decode (0x3000 ||| BitVec.ofNat 16 x.val <<< 8 ||| kk.setWidth 16) = .instr (.seByte x kk) ∧
    decode (0x4000 ||| BitVec.ofNat 16 x.val <<< 8 ||| kk.setWidth 16) = .instr (.sneByte x kk) ∧
    exec (.seByte x kk) s = .next { s with
      pc := BitVec.ofNat 16 ((s.pc.toNat + if s.getV x = kk then 4 else 2) % 4096) } ∧
    exec (.sneByte x kk) s = .next { s with
      pc := BitVec.ofNat 16 ((s.pc.toNat + if s.getV x = kk then 2 else 4) % 4096) }

/-- R95, R96: the encodings; 5xy0 skips exactly when V[x] = V[y], 9xy0 exactly when they differ; with a low nibble other
than 0 the word is UNKNOWN. -/
def Obligations.SkipsOnRegisters : Prop :=
  (∀ (x y : Reg) (s : State),
    decode (0x5000 ||| BitVec.ofNat 16 x.val <<< 8 ||| BitVec.ofNat 16 y.val <<< 4) = .instr (.seReg x y) ∧
    decode (0x9000 ||| BitVec.ofNat 16 x.val <<< 8 ||| BitVec.ofNat 16 y.val <<< 4) = .instr (.sneReg x y) ∧
    exec (.seReg x y) s = .next { s with
      pc := BitVec.ofNat 16 ((s.pc.toNat + if s.getV x = s.getV y then 4 else 2) % 4096) } ∧
    exec (.sneReg x y) s = .next { s with
      pc := BitVec.ofNat 16 ((s.pc.toNat + if s.getV x = s.getV y then 2 else 4) % 4096) }) ∧
  (∀ op : Word, (op.toNat / 4096 = 5 ∨ op.toNat / 4096 = 9) → op.toNat % 16 ≠ 0 → decode op = .unknown op)

/-- R97: the encoding, and `PC <- (nnn + V[0]) mod 4096`. -/
def Obligations.JumpPlusV0 : Prop :=
  ∀ (nnn : Addr) (s : State),
    decode (0xB000 ||| nnn.setWidth 16) = .instr (.jpV0 nnn) ∧
    exec (.jpV0 nnn) s = .next { s with pc := BitVec.ofNat 16 ((nnn.toNat + (s.getV 0).toNat) % 4096) }

/-! ## Loads and the ALU (spec/42_alu.md) -/

/-- R100, R101, R102: the encodings; `V[x] <- kk`, `V[x] <- (V[x] + kk) mod 256` with no flag, `V[x] <- V[y]`. -/
def Obligations.LoadsAndImmediateAdd : Prop :=
  ∀ (x y : Reg) (kk : Byte) (s : State),
    decode (0x6000 ||| BitVec.ofNat 16 x.val <<< 8 ||| kk.setWidth 16) = .instr (.ldByte x kk) ∧
    decode (0x7000 ||| BitVec.ofNat 16 x.val <<< 8 ||| kk.setWidth 16) = .instr (.addByte x kk) ∧
    decode (0x8000 ||| BitVec.ofNat 16 x.val <<< 8 ||| BitVec.ofNat 16 y.val <<< 4 ||| 0x0) = .instr (.ldReg x y) ∧
    exec (.ldByte x kk) s = .next { s with
      v := s.v.set x.val kk,
      pc := BitVec.ofNat 16 ((s.pc.toNat + 2) % 4096) } ∧
    exec (.addByte x kk) s = .next { s with
      v := s.v.set x.val (BitVec.ofNat 8 (((s.getV x).toNat + kk.toNat) % 256)),
      pc := BitVec.ofNat 16 ((s.pc.toNat + 2) % 4096) } ∧
    exec (.ldReg x y) s = .next { s with
      v := s.v.set x.val (s.getV y),
      pc := BitVec.ofNat 16 ((s.pc.toNat + 2) % 4096) }

/-- R105, R106, R107: the encodings; OR, AND, XOR into V[x], with VF untouched unless x = 0xF. -/
def Obligations.BitwiseOperations : Prop :=
  ∀ (x y : Reg) (s : State),
    decode (0x8000 ||| BitVec.ofNat 16 x.val <<< 8 ||| BitVec.ofNat 16 y.val <<< 4 ||| 0x1) = .instr (.orReg x y) ∧
    decode (0x8000 ||| BitVec.ofNat 16 x.val <<< 8 ||| BitVec.ofNat 16 y.val <<< 4 ||| 0x2) = .instr (.andReg x y) ∧
    decode (0x8000 ||| BitVec.ofNat 16 x.val <<< 8 ||| BitVec.ofNat 16 y.val <<< 4 ||| 0x3) = .instr (.xorReg x y) ∧
    exec (.orReg x y) s = .next { s with
      v := s.v.set x.val (s.getV x ||| s.getV y),
      pc := BitVec.ofNat 16 ((s.pc.toNat + 2) % 4096) } ∧
    exec (.andReg x y) s = .next { s with
      v := s.v.set x.val (s.getV x &&& s.getV y),
      pc := BitVec.ofNat 16 ((s.pc.toNat + 2) % 4096) } ∧
    exec (.xorReg x y) s = .next { s with
      v := s.v.set x.val (s.getV x ^^^ s.getV y),
      pc := BitVec.ofNat 16 ((s.pc.toNat + 2) % 4096) }

/-- R103, R108: the encoding; VF gets the carry of the operands, then V[x] the sum modulo 256, which survives at x = 0xF. -/
def Obligations.AddSetsCarryThenSum : Prop :=
  ∀ (x y : Reg) (s : State),
    decode (0x8000 ||| BitVec.ofNat 16 x.val <<< 8 ||| BitVec.ofNat 16 y.val <<< 4 ||| 0x4) = .instr (.addReg x y) ∧
    ∃ t, exec (.addReg x y) s = .next t ∧
      (t.getV x).toNat = ((s.getV x).toNat + (s.getV y).toNat) % 256 ∧
      (x ≠ 15 → t.getV 15 = if (s.getV x).toNat + (s.getV y).toNat > 255 then 1 else 0) ∧
      (∀ r : Reg, r ≠ x → r ≠ 15 → t.getV r = s.getV r) ∧
      t = { s with v := t.v, pc := BitVec.ofNat 16 ((s.pc.toNat + 2) % 4096) }

/-- R103, R109, R111: the encodings; VF gets NOT borrow (minuend ≥ subtrahend), then V[x] the difference modulo 256:
V[x] - V[y] for 8xy5, V[y] - V[x] for 8xy7. -/
def Obligations.SubtractsSetNotBorrowThenDifference : Prop :=
  ∀ (x y : Reg) (s : State),
    decode (0x8000 ||| BitVec.ofNat 16 x.val <<< 8 ||| BitVec.ofNat 16 y.val <<< 4 ||| 0x5) = .instr (.subReg x y) ∧
    decode (0x8000 ||| BitVec.ofNat 16 x.val <<< 8 ||| BitVec.ofNat 16 y.val <<< 4 ||| 0x7) = .instr (.subnReg x y) ∧
    (∃ t, exec (.subReg x y) s = .next t ∧
      (t.getV x).toNat = ((s.getV x).toNat + 256 - (s.getV y).toNat) % 256 ∧
      (x ≠ 15 → t.getV 15 = if (s.getV x).toNat ≥ (s.getV y).toNat then 1 else 0) ∧
      (∀ r : Reg, r ≠ x → r ≠ 15 → t.getV r = s.getV r) ∧
      t = { s with v := t.v, pc := BitVec.ofNat 16 ((s.pc.toNat + 2) % 4096) }) ∧
    (∃ t, exec (.subnReg x y) s = .next t ∧
      (t.getV x).toNat = ((s.getV y).toNat + 256 - (s.getV x).toNat) % 256 ∧
      (x ≠ 15 → t.getV 15 = if (s.getV y).toNat ≥ (s.getV x).toNat then 1 else 0) ∧
      (∀ r : Reg, r ≠ x → r ≠ 15 → t.getV r = s.getV r) ∧
      t = { s with v := t.v, pc := BitVec.ofNat 16 ((s.pc.toNat + 2) % 4096) })

/-- R103, R110, R112: the encodings, with any y; VF gets the bit shifted out of V[x], then V[x] the shifted value. -/
def Obligations.ShiftsSetBitShiftedOut : Prop :=
  ∀ (x y : Reg) (s : State),
    decode (0x8000 ||| BitVec.ofNat 16 x.val <<< 8 ||| BitVec.ofNat 16 y.val <<< 4 ||| 0x6) = .instr (.shr x y) ∧
    decode (0x8000 ||| BitVec.ofNat 16 x.val <<< 8 ||| BitVec.ofNat 16 y.val <<< 4 ||| 0xE) = .instr (.shl x y) ∧
    (∃ t, exec (.shr x y) s = .next t ∧
      (t.getV x).toNat = (s.getV x).toNat / 2 ∧
      (x ≠ 15 → (t.getV 15).toNat = (s.getV x).toNat % 2) ∧
      (∀ r : Reg, r ≠ x → r ≠ 15 → t.getV r = s.getV r) ∧
      t = { s with v := t.v, pc := BitVec.ofNat 16 ((s.pc.toNat + 2) % 4096) }) ∧
    (∃ t, exec (.shl x y) s = .next t ∧
      (t.getV x).toNat = (s.getV x).toNat * 2 % 256 ∧
      (x ≠ 15 → (t.getV 15).toNat = (s.getV x).toNat / 128) ∧
      (∀ r : Reg, r ≠ x → r ≠ 15 → t.getV r = s.getV r) ∧
      t = { s with v := t.v, pc := BitVec.ofNat 16 ((s.pc.toNat + 2) % 4096) })

/-- R113: the encoding, and `V[x] <- rnd & kk`, where rnd is the next free value (log entry 1): nothing is known of it, so
this holds of every value it may have; `rndEffect` is the same with any byte the host supplies. -/
def Obligations.RandomByteIsMasked : Prop :=
  ∀ (x : Reg) (kk rnd : Byte) (s : State),
    decode (0xC000 ||| BitVec.ofNat 16 x.val <<< 8 ||| kk.setWidth 16) = .instr (.rnd x kk) ∧
    exec (.rnd x kk) s = .next { s with
      v := s.v.set x.val (Config.randomByte s.draws &&& kk),
      pc := BitVec.ofNat 16 ((s.pc.toNat + 2) % 4096), draws := s.draws + 1 } ∧
    rndEffect rnd x kk s = { s with
      v := s.v.set x.val (rnd &&& kk),
      pc := BitVec.ofNat 16 ((s.pc.toNat + 2) % 4096) }

/-! ## Index register and memory (spec/43_index_memory.md) -/

/-- R120, R121, R122: the encodings; `I <- nnn`, `I <- (I + V[x]) mod 4096`, `I <- 0x050 + 5 V[x]` with no mask; no flag. -/
def Obligations.IndexRegisterWrites : Prop :=
  ∀ (nnn : Addr) (x : Reg) (s : State),
    decode (0xA000 ||| nnn.setWidth 16) = .instr (.ldI nnn) ∧
    decode (0xF01E ||| BitVec.ofNat 16 x.val <<< 8) = .instr (.addI x) ∧
    decode (0xF029 ||| BitVec.ofNat 16 x.val <<< 8) = .instr (.ldF x) ∧
    exec (.ldI nnn) s = .next { s with
      i := nnn.setWidth 16,
      pc := BitVec.ofNat 16 ((s.pc.toNat + 2) % 4096) } ∧
    exec (.addI x) s = .next { s with
      i := BitVec.ofNat 16 ((s.i.toNat + (s.getV x).toNat) % 4096),
      pc := BitVec.ofNat 16 ((s.pc.toNat + 2) % 4096) } ∧
    exec (.ldF x) s = .next { s with
      i := BitVec.ofNat 16 (0x050 + (s.getV x).toNat * 5),
      pc := BitVec.ofNat 16 ((s.pc.toNat + 2) % 4096) }

/-- R123: the encoding; the hundreds, tens and ones of V[x] go to I, I + 1, I + 2 (modulo 4096), and nothing else is
written, I included. The canonical memory of the premise is an invariant (`StepKeepsLegal`). -/
def Obligations.BcdDigitsAreStored : Prop :=
  ∀ (x : Reg) (s : State), Memory.wf s.mem = true →
    decode (0xF033 ||| BitVec.ofNat 16 x.val <<< 8) = .instr (.ldB x) ∧
    ∃ t, exec (.ldB x) s = .next t ∧
      (Memory.read t.mem (s.i.toNat % 4096)).toNat = (s.getV x).toNat / 100 ∧
      (Memory.read t.mem ((s.i.toNat + 1) % 4096)).toNat = (s.getV x).toNat / 10 % 10 ∧
      (Memory.read t.mem ((s.i.toNat + 2) % 4096)).toNat = (s.getV x).toNat % 10 ∧
      (∀ a, a < 4096 → a ≠ s.i.toNat % 4096 → a ≠ (s.i.toNat + 1) % 4096 → a ≠ (s.i.toNat + 2) % 4096 →
        Memory.read t.mem a = Memory.read s.mem a) ∧
      t = { s with mem := t.mem, pc := BitVec.ofNat 16 ((s.pc.toNat + 2) % 4096) }

/-- R124: the encoding; V[k] goes to I + k (modulo 4096) for k = 0..x, and nothing else is written, I included. The canonical
memory of the premise is an invariant (`StepKeepsLegal`). -/
def Obligations.RegistersAreStored : Prop :=
  ∀ (x : Reg) (s : State), Memory.wf s.mem = true →
    decode (0xF055 ||| BitVec.ofNat 16 x.val <<< 8) = .instr (.ldMemVx x) ∧
    ∃ t, exec (.ldMemVx x) s = .next t ∧
      (∀ k : Reg, k ≤ x → Memory.read t.mem ((s.i.toNat + k.val) % 4096) = s.getV k) ∧
      (∀ a, a < 4096 → (∀ k : Reg, k ≤ x → a ≠ (s.i.toNat + k.val) % 4096) →
        Memory.read t.mem a = Memory.read s.mem a) ∧
      t = { s with mem := t.mem, pc := BitVec.ofNat 16 ((s.pc.toNat + 2) % 4096) }

/-- R125: the encoding; V[k] is loaded from I + k (modulo 4096) for k = 0..x, and nothing else is written, I included. -/
def Obligations.RegistersAreLoaded : Prop :=
  ∀ (x : Reg) (s : State),
    decode (0xF065 ||| BitVec.ofNat 16 x.val <<< 8) = .instr (.ldVxMem x) ∧
    ∃ t, exec (.ldVxMem x) s = .next t ∧
      (∀ k : Reg, k ≤ x → t.getV k = Memory.read s.mem ((s.i.toNat + k.val) % 4096)) ∧
      (∀ k : Reg, x < k → t.getV k = s.getV k) ∧
      t = { s with v := t.v, pc := BitVec.ofNat 16 ((s.pc.toNat + 2) % 4096) }

/-- R124, R125: what Fx55 stored, Fx65 loads back. In any later state with the memory and the I that Fx55 left, whatever its
registers hold by then, Fx65 gives each of V0..Vx the value it had at the store, and leaves the other registers as they are. -/
def Obligations.LoadUndoesStore : Prop :=
  ∀ (x : Reg) (s t t' : State), Memory.wf s.mem = true → exec (.ldMemVx x) s = .next t →
    t'.mem = t.mem → t'.i = t.i →
    ∃ u, exec (.ldVxMem x) t' = .next u ∧ (∀ k : Reg, k ≤ x → u.getV k = s.getV k) ∧
      (∀ k : Reg, x < k → u.getV k = t'.getV k)

/-- R52: a byte stored by one instruction is what the very next fetch reads. With I at the next instruction's address, the
next word is made of V0 and V1. -/
def Obligations.StoredCodeIsFetchedNext : Prop :=
  ∀ (x : Reg) (s t : State), Memory.wf s.mem = true → 1 ≤ x.val →
    s.i.toNat % 4096 = (s.pc.toNat + 2) % 4096 → exec (.ldMemVx x) s = .next t →
    t.fetchWord = (s.getV 0).setWidth 16 <<< 8 ||| (s.getV 1).setWidth 16

/-- Two memories in the canonical form that read the same at every address are the same list (log entry 3). -/
def Obligations.CanonicalMemoryIsUnique : Prop :=
  ∀ m m' : Memory, Memory.wf m = true → Memory.wf m' = true →
    (∀ a, a < 4096 → Memory.read m a = Memory.read m' a) → m = m'

/-! ## Display (spec/44_display.md) -/

/-- R131: the encoding; every pixel becomes 0 and nothing else but PC changes, VF included. -/
def Obligations.ClearBlanksDisplay : Prop :=
  decode 0x00E0 = .instr .cls ∧
  ∀ s : State, ∃ t, exec .cls s = .next t ∧ (∀ r c, t.fb.pixel r c = false) ∧
    t = { s with fb := t.fb, pc := BitVec.ofNat 16 ((s.pc.toNat + 2) % 4096) }

/-- R132: the encoding; the loop of the rule in closed form. Every pixel is XORed with the sprite bit that falls on it, both
coordinates wrapping; VF is 1 exactly when some pixel went from 1 to 0 anywhere in the draw; nothing else but PC changes. -/
def Obligations.DrawXorsSpriteAndReportsCollision : Prop :=
  ∀ (x y : Reg) (n : Nibble) (s : State),
    decode (0xD000 ||| BitVec.ofNat 16 x.val <<< 8 ||| BitVec.ofNat 16 y.val <<< 4 ||| n.setWidth 16)
      = .instr (.drw x y n) ∧
    ∃ t, exec (.drw x y n) s = .next t ∧
      (∀ r c, t.fb.pixel r c =
        (s.fb.pixel r c ^^ spriteCovers s.mem s.i.toNat (s.getV x).toNat (s.getV y).toNat n.toNat r c)) ∧
      (t.getV 15 = if ∃ r c, s.fb.pixel r c = true ∧ t.fb.pixel r c = false then 1 else 0) ∧
      (∀ r : Reg, r ≠ 15 → t.getV r = s.getV r) ∧
      t = { s with v := t.v, fb := t.fb, pc := BitVec.ofNat 16 ((s.pc.toNat + 2) % 4096) }

/-- R132: drawing the same sprite twice at the same place restores every pixel. The second draw sets VF = 1 exactly when a
pixel under a set bit of the sprite was 0 before the first draw; on a display that was clear that is exactly when the sprite
has a set bit, as the rule's corner case says (on a display already set under the whole sprite the pseudocode gives 0: log
entry 10). The coordinate registers are not VF, which the first draw overwrites. -/
def Obligations.DrawingTwiceRestoresDisplay : Prop :=
  ∀ (x y : Reg) (n : Nibble) (s t u : State), x ≠ 15 → y ≠ 15 →
    exec (.drw x y n) s = .next t → exec (.drw x y n) t = .next u →
    u.fb = s.fb ∧
    (u.getV 15 = if ∃ r c, spriteCovers s.mem s.i.toNat (s.getV x).toNat (s.getV y).toNat n.toNat r c = true ∧
      s.fb.pixel r c = false then 1 else 0) ∧
    ((∀ r c, s.fb.pixel r c = false) →
      (u.getV 15 = if ∃ row, row < n.toNat ∧ Memory.read s.mem (s.i.toNat + row) ≠ 0 then 1 else 0))

/-! ## Keypad, timers and the key wait (spec/45_timers_keys.md) -/

/-- R140, R141, R142: the encodings; Ex9E skips exactly when V[x] ≤ 0xF names a key that is down, ExA1 exactly when not. -/
def Obligations.SkipsOnKeys : Prop :=
  ∀ (x : Reg) (s : State),
    decode (0xE09E ||| BitVec.ofNat 16 x.val <<< 8) = .instr (.skp x) ∧
    decode (0xE0A1 ||| BitVec.ofNat 16 x.val <<< 8) = .instr (.sknp x) ∧
    (∀ k : Fin 16, (s.getV x).toNat = k.val →
      exec (.skp x) s = .next { s with
        pc := BitVec.ofNat 16 ((s.pc.toNat + if s.keys[k.val] then 4 else 2) % 4096) } ∧
      exec (.sknp x) s = .next { s with
        pc := BitVec.ofNat 16 ((s.pc.toNat + if s.keys[k.val] then 2 else 4) % 4096) }) ∧
    ((s.getV x).toNat > 0xF →
      exec (.skp x) s = .next { s with pc := BitVec.ofNat 16 ((s.pc.toNat + 2) % 4096) } ∧
      exec (.sknp x) s = .next { s with pc := BitVec.ofNat 16 ((s.pc.toNat + 4) % 4096) })

/-- R143, R147, R148: the encodings; `V[x] <- DT`, `DT <- V[x]`, `ST <- V[x]`, and isSoundActive is ST > 0 from then on. -/
def Obligations.TimerMoves : Prop :=
  ∀ (x : Reg) (s : State),
    decode (0xF007 ||| BitVec.ofNat 16 x.val <<< 8) = .instr (.ldVxDt x) ∧
    decode (0xF015 ||| BitVec.ofNat 16 x.val <<< 8) = .instr (.ldDtVx x) ∧
    decode (0xF018 ||| BitVec.ofNat 16 x.val <<< 8) = .instr (.ldStVx x) ∧
    exec (.ldVxDt x) s = .next { s with
      v := s.v.set x.val s.dt,
      pc := BitVec.ofNat 16 ((s.pc.toNat + 2) % 4096) } ∧
    exec (.ldDtVx x) s = .next { s with dt := s.getV x, pc := BitVec.ofNat 16 ((s.pc.toNat + 2) % 4096) } ∧
    ∃ t, exec (.ldStVx x) s = .next t ∧ t = { s with st := s.getV x, pc := BitVec.ofNat 16 ((s.pc.toNat + 2) % 4096) } ∧
      (t.isSoundActive = true ↔ s.getV x ≠ 0)

/-- R145: the encoding; the entry step of Fx0A latches x, enters AWAITING_KEY and leaves PC at p; V[x] and everything else
is unchanged, whatever keys are down, and the result is Waiting. -/
def Obligations.KeyWaitEntry : Prop :=
  ∀ (x : Reg) (s : State),
    decode (0xF00A ||| BitVec.ofNat 16 x.val <<< 8) = .instr (.ldVxK x) ∧
    ∃ t, exec (.ldVxK x) s = .next t ∧ t = { s with waitX := x, mode := .awaitingKey } ∧ stepResult s t = .waiting

/-- R149; spec/93 row 13: a wait with no key down is a hang. Whatever steps, ticks and reads the host issues, the state
stays exactly as it is, timers included, until the host gives input. -/
def Obligations.WaitWithoutKeyHangs : Prop :=
  ∀ font (cs : List Command) (s : State), s.Hung → (∀ c ∈ cs, c.givesNoInput = true) →
    ∃ rs, Block.run font cs (.ready s) = .next (.ready s, rs) ∧ rs.length = cs.length

/-! ## Host commands (spec/60_exceptions.md, spec/70_reset_and_hazards.md) -/

/-- R160: the command tick60Hz decrements each timer that is nonzero, in RUNNING and in HALTED, and nothing while the core
awaits a key. It outputs nothing (R6). -/
def Obligations.TickCountsTimersDown : Prop :=
  ∀ font (s : State),
    (s.mode = .awaitingKey → s.command font .tick60Hz = .next (.ready s, .none)) ∧
    (s.mode ≠ .awaitingKey → s.command font .tick60Hz = .next
      (.ready { s with dt := BitVec.ofNat 8 (s.dt.toNat - 1), st := BitVec.ofNat 8 (s.st.toNat - 1) }, .none))

/-- R161, R162, R163, R164: setKeys replaces the snapshot and nothing else, in any mode; the reads answer ST > 0, the buffer and
MODE = AWAITING_KEY, and a read changes nothing. -/
def Obligations.KeypadAndReadCommands : Prop :=
  ∀ font (s : State),
    (∀ keys, s.command font (.setKeys keys) = .next (.ready { s with keys := keys }, .none)) ∧
    s.command font .isSoundActive = .next (.ready s, .soundActive (decide (s.st ≠ 0))) ∧
    s.command font .getDisplay = .next (.ready s, .display s.fb) ∧
    s.command font .awaitingKey = .next (.ready s, .awaiting (decide (s.mode = .awaitingKey))) ∧
    (∀ c b r, c.readsOnly = true → s.command font c = .next (b, r) → b = .ready s)

/-- R170 with R35, R45: `initialize` in any state, HALTED and AWAITING_KEY included, and as a block's first command, leaves
every element at its reset value: memory 0 but for the font at 0x050-0x09F, PC = 0x200, all else 0, false, RUNNING or none.
State.reset is that state with the default font. (Nothing is said of the stack entries, which R35 leaves unspecified.) -/
def Obligations.InitializeResetsEverything : Prop :=
  ∀ font (b : Block), ∃ t, b.command font .init = .next (.ready t, .none) ∧
    (∀ j, (h : j < 80) → Memory.read t.mem (0x050 + j) = font[j]) ∧
    (∀ a, a < 4096 → (a < 0x050 ∨ 0x0A0 ≤ a) → Memory.read t.mem a = 0) ∧
    (∀ r, t.getV r = 0) ∧ t.i = 0 ∧ t.pc = 0x200 ∧ t.sp = 0 ∧ t.dt = 0 ∧ t.st = 0 ∧
    (∀ r c, t.fb.pixel r c = false) ∧ (∀ k : Fin 16, t.keys[k.val] = false) ∧
    t.mode = .running ∧ t.waitX = 0 ∧ t.haltReason = .none ∧
    State.reset = State.resetWith Config.font

/-- R171 (R155): the command loadRom. A ROM longer than 3584 bytes is rejected and nothing is written; any other is copied to
0x200 upward and no other byte, register or mode changes; the reply says which (R6). The canonical memory of the premise is
an invariant (`EveryCommandRunKeepsLegal`). -/
def Obligations.LoadRomCopiesOrRejects : Prop :=
  ∀ font (s : State) (bytes : List Byte), Memory.wf s.mem = true →
    (bytes.length > 3584 → s.command font (.loadRom bytes) = .next (.ready s, .loaded .tooLarge)) ∧
    (bytes.length ≤ 3584 → ∃ m, s.command font (.loadRom bytes) = .next (.ready { s with mem := m }, .loaded .ok) ∧
      (∀ j, (h : j < bytes.length) → Memory.read m (0x200 + j) = bytes[j]) ∧
      (∀ a, a < 4096 → (a < 0x200 ∨ 0x200 + bytes.length ≤ a) → Memory.read m a = Memory.read s.mem a))

/-- R36: before the first `initialize` every other command is refused. -/
def Obligations.NothingBeforeInitialize : Prop :=
  ∀ font c, c ≠ Command.init → Block.command font c .uninitialised = .refused .notInitialised

/-- A word placed with withFetchWord is run by the very next step, in every state and mode whose memory is canonical: the
host's way to stand for a loaded program (log entry 7). -/
def Obligations.PlacedWordRunsNext : Prop :=
  ∀ (s : State) (i : Instr), Memory.wf s.mem = true →
    decodeTableWord 16 (encode i).toNat = some i ∧
    step (s.withFetchWord 16 (encode i).toNat) = exec i (s.withFetchWord 16 (encode i).toNat)
end

