-- ==== Sys2Proof/Laws/Encoding.lean ====
section
/-! SUPPORT. The fields of an encoded word (spec/30_encoding.md R61, R62): one lemma per field of each format. A family
word is one whose low 12 bits are 0. -/

namespace Sys2Proof

/-- Only bits 3..0 of a register index are set. -/
theorem reg_testBit_high (x : Reg) (k : Nat) (h : 4 ≤ k) : x.val.testBit k = false :=
  Nat.testBit_lt_two_pow (lt_of_lt_of_le x.isLt (Nat.pow_le_pow_right (n := 2) (by decide) h))

theorem regBits_getElem (x : Reg) (k : Nat) (h : k < 16) : (regBits x)[k] = x.val.testBit k := by
  rw [← BitVec.getLsbD_eq_getElem, regBits, BitVec.getLsbD_ofNat]
  simp [h]

/-- The bits of format NNN. -/
theorem encNnn_getLsbD (f : Word) (nnn : Addr) (k : Nat) :
    (encNnn f nnn).getLsbD k = (f.getLsbD k || nnn.getLsbD k) := by
  have : ¬ k < 16 → nnn.getLsbD k = false := fun h => BitVec.getLsbD_of_ge _ _ (by omega)
  by_cases h : k < 16 <;> simp [encNnn, BitVec.getLsbD_setWidth, h, this]

/-- The bits of format XKK. -/
theorem encXkk_getLsbD (f : Word) (x : Reg) (kk : Byte) (k : Nat) :
    (encXkk f x kk).getLsbD k =
      (f.getLsbD k || (decide (8 ≤ k) && x.val.testBit (k - 8)) || kk.getLsbD k) := by
  by_cases h : k < 16
  · by_cases h8 : k < 8
    · have : ¬ 8 ≤ k := by omega
      simp [encXkk, h, h8, this]
    · simp [encXkk, h, h8, show 8 ≤ k by omega, regBits_getElem]
  · have h1 : kk.getLsbD k = false := BitVec.getLsbD_of_ge _ _ (by omega)
    have h2 : f.getLsbD k = false := BitVec.getLsbD_of_ge _ _ (by omega)
    have h3 := reg_testBit_high x (k - 8) (by omega)
    simp [encXkk, h, h1, h2, h3]

/-- The bits of formats XY0, XYF and XYN. -/
theorem encXyn_getLsbD (f : Word) (x y : Reg) (n : Nibble) (k : Nat) :
    (encXyn f x y n).getLsbD k =
      (f.getLsbD k || (decide (8 ≤ k) && x.val.testBit (k - 8)) ||
        (decide (4 ≤ k) && y.val.testBit (k - 4)) || n.getLsbD k) := by
  by_cases h : k < 16
  · by_cases h4 : k < 4
    · have h1 : ¬ 4 ≤ k := by omega
      have h2 : ¬ 8 ≤ k := by omega
      simp [encXyn, h, h4, h1, h2, show k < 8 by omega]
    · by_cases h8 : k < 8
      · have h2 : ¬ 8 ≤ k := by omega
        simp [encXyn, h, h4, h8, h2, show 4 ≤ k by omega, regBits_getElem]
      · simp [encXyn, h, h4, h8, show 4 ≤ k by omega, show 8 ≤ k by omega, regBits_getElem]
  · have h1 : n.getLsbD k = false := BitVec.getLsbD_of_ge _ _ (by omega)
    have h2 : f.getLsbD k = false := BitVec.getLsbD_of_ge _ _ (by omega)
    have h3 := reg_testBit_high x (k - 8) (by omega)
    have h4 := reg_testBit_high y (k - 4) (by omega)
    simp [encXyn, h, h1, h2, h3, h4]

/-- A family word: bits 11..0 are 0 (R62). -/
def IsFamily (f : Word) : Prop := ∀ k, k < 12 → f.getLsbD k = false

theorem fieldHi_encNnn (f : Word) (nnn : Addr) : fieldHi (encNnn f nnn) = fieldHi f := by
  ext k hk
  simp [fieldHi, encNnn_getLsbD]

theorem fieldNnn_encNnn (f : Word) (nnn : Addr) (hf : IsFamily f) : fieldNnn (encNnn f nnn) = nnn := by
  ext k hk
  simp [fieldNnn, encNnn_getLsbD, hf k hk, BitVec.getLsbD_eq_getElem hk]

theorem fieldHi_encXkk (f : Word) (x : Reg) (kk : Byte) : fieldHi (encXkk f x kk) = fieldHi f := by
  ext k hk
  simp [fieldHi, encXkk_getLsbD, BitVec.getLsbD_of_ge kk (12 + k) (by omega),
    reg_testBit_high x (12 + k - 8) (by omega)]

theorem fieldX_encXkk (f : Word) (x : Reg) (kk : Byte) (hf : IsFamily f) : fieldX (encXkk f x kk) = x := by
  have : (encXkk f x kk).extractLsb' 8 4 = BitVec.ofFin (w := 4) x := by
    ext k hk
    simp [encXkk_getLsbD, hf (8 + k) (by omega)]
  exact congrArg BitVec.toFin this

theorem fieldKk_encXkk (f : Word) (x : Reg) (kk : Byte) (hf : IsFamily f) : fieldKk (encXkk f x kk) = kk := by
  ext k hk
  have : ¬ 8 ≤ k := by omega
  simp [fieldKk, encXkk_getLsbD, hf k (by omega), this, BitVec.getLsbD_eq_getElem hk]

theorem fieldHi_encXyn (f : Word) (x y : Reg) (n : Nibble) : fieldHi (encXyn f x y n) = fieldHi f := by
  ext k hk
  simp [fieldHi, encXyn_getLsbD, BitVec.getLsbD_of_ge n (12 + k) (by omega),
    reg_testBit_high x (12 + k - 8) (by omega), reg_testBit_high y (12 + k - 4) (by omega)]

theorem fieldX_encXyn (f : Word) (x y : Reg) (n : Nibble) (hf : IsFamily f) : fieldX (encXyn f x y n) = x := by
  have : (encXyn f x y n).extractLsb' 8 4 = BitVec.ofFin (w := 4) x := by
    ext k hk
    simp [encXyn_getLsbD, hf (8 + k) (by omega), BitVec.getLsbD_of_ge n (8 + k) (by omega),
      reg_testBit_high y (8 + k - 4) (by omega)]
  exact congrArg BitVec.toFin this

theorem fieldY_encXyn (f : Word) (x y : Reg) (n : Nibble) (hf : IsFamily f) : fieldY (encXyn f x y n) = y := by
  have : (encXyn f x y n).extractLsb' 4 4 = BitVec.ofFin (w := 4) y := by
    ext k hk
    have : ¬ 8 ≤ 4 + k := by omega
    simp [encXyn_getLsbD, hf (4 + k) (by omega), this]
  exact congrArg BitVec.toFin this

theorem fieldN_encXyn (f : Word) (x y : Reg) (n : Nibble) (hf : IsFamily f) : fieldN (encXyn f x y n) = n := by
  ext k hk
  have h4 : ¬ 4 ≤ k := by omega
  have h8 : ¬ 8 ≤ k := by omega
  simp [fieldN, encXyn_getLsbD, hf k (by omega), h4, h8, BitVec.getLsbD_eq_getElem hk]

/-- The two bytes of a word, put together again, are the word (R42). -/
theorem wordOfBytes_bytes (op : Word) : wordOfBytes (highByte op) (lowByte op) = op := by
  ext k hk
  by_cases h : k < 8
  · simp [wordOfBytes, highByte, lowByte, h, BitVec.getLsbD_eq_getElem hk]
  · simp [wordOfBytes, highByte, lowByte, h, show k - 8 < 8 by omega, show 8 + (k - 8) = k by omega,
      BitVec.getLsbD_eq_getElem hk]

end Sys2Proof
end

