-- ==== Sys2Proof/Laws/State.lean ====
section
/-! SUPPORT. What each update of the state leaves in each field: one lemma per field per update, so that no later proof
unfolds a record update. -/

namespace Sys2Proof.Machine

variable (s : State)

/-! ## `setV` -/

@[simp] theorem State.setV_mem (x : Reg) (b : Byte) : (s.setV x b).mem = s.mem := rfl
@[simp] theorem State.setV_v (x : Reg) (b : Byte) : (s.setV x b).v = s.v.set x.val b := rfl
@[simp] theorem State.setV_i (x : Reg) (b : Byte) : (s.setV x b).i = s.i := rfl
@[simp] theorem State.setV_pc (x : Reg) (b : Byte) : (s.setV x b).pc = s.pc := rfl
@[simp] theorem State.setV_stack (x : Reg) (b : Byte) : (s.setV x b).stack = s.stack := rfl
@[simp] theorem State.setV_sp (x : Reg) (b : Byte) : (s.setV x b).sp = s.sp := rfl
@[simp] theorem State.setV_dt (x : Reg) (b : Byte) : (s.setV x b).dt = s.dt := rfl
@[simp] theorem State.setV_st (x : Reg) (b : Byte) : (s.setV x b).st = s.st := rfl
@[simp] theorem State.setV_fb (x : Reg) (b : Byte) : (s.setV x b).fb = s.fb := rfl
@[simp] theorem State.setV_keys (x : Reg) (b : Byte) : (s.setV x b).keys = s.keys := rfl
@[simp] theorem State.setV_mode (x : Reg) (b : Byte) : (s.setV x b).mode = s.mode := rfl
@[simp] theorem State.setV_waitX (x : Reg) (b : Byte) : (s.setV x b).waitX = s.waitX := rfl
@[simp] theorem State.setV_haltReason (x : Reg) (b : Byte) : (s.setV x b).haltReason = s.haltReason := rfl
@[simp] theorem State.setV_draws (x : Reg) (b : Byte) : (s.setV x b).draws = s.draws := rfl

/-! ## `setI` -/

@[simp] theorem State.setI_mem (w : Word) : (s.setI w).mem = s.mem := rfl
@[simp] theorem State.setI_v (w : Word) : (s.setI w).v = s.v := rfl
@[simp] theorem State.setI_i (w : Word) : (s.setI w).i = w := rfl
@[simp] theorem State.setI_pc (w : Word) : (s.setI w).pc = s.pc := rfl
@[simp] theorem State.setI_stack (w : Word) : (s.setI w).stack = s.stack := rfl
@[simp] theorem State.setI_sp (w : Word) : (s.setI w).sp = s.sp := rfl
@[simp] theorem State.setI_dt (w : Word) : (s.setI w).dt = s.dt := rfl
@[simp] theorem State.setI_st (w : Word) : (s.setI w).st = s.st := rfl
@[simp] theorem State.setI_fb (w : Word) : (s.setI w).fb = s.fb := rfl
@[simp] theorem State.setI_keys (w : Word) : (s.setI w).keys = s.keys := rfl
@[simp] theorem State.setI_mode (w : Word) : (s.setI w).mode = s.mode := rfl
@[simp] theorem State.setI_waitX (w : Word) : (s.setI w).waitX = s.waitX := rfl
@[simp] theorem State.setI_haltReason (w : Word) : (s.setI w).haltReason = s.haltReason := rfl
@[simp] theorem State.setI_draws (w : Word) : (s.setI w).draws = s.draws := rfl

/-! ## `setPc` -/

@[simp] theorem State.setPc_mem (n : Nat) : (s.setPc n).mem = s.mem := rfl
@[simp] theorem State.setPc_v (n : Nat) : (s.setPc n).v = s.v := rfl
@[simp] theorem State.setPc_i (n : Nat) : (s.setPc n).i = s.i := rfl
@[simp] theorem State.setPc_pc (n : Nat) : (s.setPc n).pc = wrap12 n := rfl
@[simp] theorem State.setPc_stack (n : Nat) : (s.setPc n).stack = s.stack := rfl
@[simp] theorem State.setPc_sp (n : Nat) : (s.setPc n).sp = s.sp := rfl
@[simp] theorem State.setPc_dt (n : Nat) : (s.setPc n).dt = s.dt := rfl
@[simp] theorem State.setPc_st (n : Nat) : (s.setPc n).st = s.st := rfl
@[simp] theorem State.setPc_fb (n : Nat) : (s.setPc n).fb = s.fb := rfl
@[simp] theorem State.setPc_keys (n : Nat) : (s.setPc n).keys = s.keys := rfl
@[simp] theorem State.setPc_mode (n : Nat) : (s.setPc n).mode = s.mode := rfl
@[simp] theorem State.setPc_waitX (n : Nat) : (s.setPc n).waitX = s.waitX := rfl
@[simp] theorem State.setPc_haltReason (n : Nat) : (s.setPc n).haltReason = s.haltReason := rfl
@[simp] theorem State.setPc_draws (n : Nat) : (s.setPc n).draws = s.draws := rfl

/-! ## `advance` -/

@[simp] theorem State.advance_mem : (s.advance).mem = s.mem := rfl
@[simp] theorem State.advance_v : (s.advance).v = s.v := rfl
@[simp] theorem State.advance_i : (s.advance).i = s.i := rfl
@[simp] theorem State.advance_pc : (s.advance).pc = wrap12 (s.pc.toNat + 2) := rfl
@[simp] theorem State.advance_stack : (s.advance).stack = s.stack := rfl
@[simp] theorem State.advance_sp : (s.advance).sp = s.sp := rfl
@[simp] theorem State.advance_dt : (s.advance).dt = s.dt := rfl
@[simp] theorem State.advance_st : (s.advance).st = s.st := rfl
@[simp] theorem State.advance_fb : (s.advance).fb = s.fb := rfl
@[simp] theorem State.advance_keys : (s.advance).keys = s.keys := rfl
@[simp] theorem State.advance_mode : (s.advance).mode = s.mode := rfl
@[simp] theorem State.advance_waitX : (s.advance).waitX = s.waitX := rfl
@[simp] theorem State.advance_haltReason : (s.advance).haltReason = s.haltReason := rfl
@[simp] theorem State.advance_draws : (s.advance).draws = s.draws := rfl

/-! ## `setDt` -/

@[simp] theorem State.setDt_mem (b : Byte) : (s.setDt b).mem = s.mem := rfl
@[simp] theorem State.setDt_v (b : Byte) : (s.setDt b).v = s.v := rfl
@[simp] theorem State.setDt_i (b : Byte) : (s.setDt b).i = s.i := rfl
@[simp] theorem State.setDt_pc (b : Byte) : (s.setDt b).pc = s.pc := rfl
@[simp] theorem State.setDt_stack (b : Byte) : (s.setDt b).stack = s.stack := rfl
@[simp] theorem State.setDt_sp (b : Byte) : (s.setDt b).sp = s.sp := rfl
@[simp] theorem State.setDt_dt (b : Byte) : (s.setDt b).dt = b := rfl
@[simp] theorem State.setDt_st (b : Byte) : (s.setDt b).st = s.st := rfl
@[simp] theorem State.setDt_fb (b : Byte) : (s.setDt b).fb = s.fb := rfl
@[simp] theorem State.setDt_keys (b : Byte) : (s.setDt b).keys = s.keys := rfl
@[simp] theorem State.setDt_mode (b : Byte) : (s.setDt b).mode = s.mode := rfl
@[simp] theorem State.setDt_waitX (b : Byte) : (s.setDt b).waitX = s.waitX := rfl
@[simp] theorem State.setDt_haltReason (b : Byte) : (s.setDt b).haltReason = s.haltReason := rfl
@[simp] theorem State.setDt_draws (b : Byte) : (s.setDt b).draws = s.draws := rfl

/-! ## `setSt` -/

@[simp] theorem State.setSt_mem (b : Byte) : (s.setSt b).mem = s.mem := rfl
@[simp] theorem State.setSt_v (b : Byte) : (s.setSt b).v = s.v := rfl
@[simp] theorem State.setSt_i (b : Byte) : (s.setSt b).i = s.i := rfl
@[simp] theorem State.setSt_pc (b : Byte) : (s.setSt b).pc = s.pc := rfl
@[simp] theorem State.setSt_stack (b : Byte) : (s.setSt b).stack = s.stack := rfl
@[simp] theorem State.setSt_sp (b : Byte) : (s.setSt b).sp = s.sp := rfl
@[simp] theorem State.setSt_dt (b : Byte) : (s.setSt b).dt = s.dt := rfl
@[simp] theorem State.setSt_st (b : Byte) : (s.setSt b).st = b := rfl
@[simp] theorem State.setSt_fb (b : Byte) : (s.setSt b).fb = s.fb := rfl
@[simp] theorem State.setSt_keys (b : Byte) : (s.setSt b).keys = s.keys := rfl
@[simp] theorem State.setSt_mode (b : Byte) : (s.setSt b).mode = s.mode := rfl
@[simp] theorem State.setSt_waitX (b : Byte) : (s.setSt b).waitX = s.waitX := rfl
@[simp] theorem State.setSt_haltReason (b : Byte) : (s.setSt b).haltReason = s.haltReason := rfl
@[simp] theorem State.setSt_draws (b : Byte) : (s.setSt b).draws = s.draws := rfl

/-! ## `setMem` -/

@[simp] theorem State.setMem_mem (m : Memory) : (s.setMem m).mem = m := rfl
@[simp] theorem State.setMem_v (m : Memory) : (s.setMem m).v = s.v := rfl
@[simp] theorem State.setMem_i (m : Memory) : (s.setMem m).i = s.i := rfl
@[simp] theorem State.setMem_pc (m : Memory) : (s.setMem m).pc = s.pc := rfl
@[simp] theorem State.setMem_stack (m : Memory) : (s.setMem m).stack = s.stack := rfl
@[simp] theorem State.setMem_sp (m : Memory) : (s.setMem m).sp = s.sp := rfl
@[simp] theorem State.setMem_dt (m : Memory) : (s.setMem m).dt = s.dt := rfl
@[simp] theorem State.setMem_st (m : Memory) : (s.setMem m).st = s.st := rfl
@[simp] theorem State.setMem_fb (m : Memory) : (s.setMem m).fb = s.fb := rfl
@[simp] theorem State.setMem_keys (m : Memory) : (s.setMem m).keys = s.keys := rfl
@[simp] theorem State.setMem_mode (m : Memory) : (s.setMem m).mode = s.mode := rfl
@[simp] theorem State.setMem_waitX (m : Memory) : (s.setMem m).waitX = s.waitX := rfl
@[simp] theorem State.setMem_haltReason (m : Memory) : (s.setMem m).haltReason = s.haltReason := rfl
@[simp] theorem State.setMem_draws (m : Memory) : (s.setMem m).draws = s.draws := rfl

/-! ## `setFb` -/

@[simp] theorem State.setFb_mem (fb : Display) : (s.setFb fb).mem = s.mem := rfl
@[simp] theorem State.setFb_v (fb : Display) : (s.setFb fb).v = s.v := rfl
@[simp] theorem State.setFb_i (fb : Display) : (s.setFb fb).i = s.i := rfl
@[simp] theorem State.setFb_pc (fb : Display) : (s.setFb fb).pc = s.pc := rfl
@[simp] theorem State.setFb_stack (fb : Display) : (s.setFb fb).stack = s.stack := rfl
@[simp] theorem State.setFb_sp (fb : Display) : (s.setFb fb).sp = s.sp := rfl
@[simp] theorem State.setFb_dt (fb : Display) : (s.setFb fb).dt = s.dt := rfl
@[simp] theorem State.setFb_st (fb : Display) : (s.setFb fb).st = s.st := rfl
@[simp] theorem State.setFb_fb (fb : Display) : (s.setFb fb).fb = fb := rfl
@[simp] theorem State.setFb_keys (fb : Display) : (s.setFb fb).keys = s.keys := rfl
@[simp] theorem State.setFb_mode (fb : Display) : (s.setFb fb).mode = s.mode := rfl
@[simp] theorem State.setFb_waitX (fb : Display) : (s.setFb fb).waitX = s.waitX := rfl
@[simp] theorem State.setFb_haltReason (fb : Display) : (s.setFb fb).haltReason = s.haltReason := rfl
@[simp] theorem State.setFb_draws (fb : Display) : (s.setFb fb).draws = s.draws := rfl

/-! ## `setKeys` -/

@[simp] theorem State.setKeys_mem (k : Keypad) : (s.setKeys k).mem = s.mem := rfl
@[simp] theorem State.setKeys_v (k : Keypad) : (s.setKeys k).v = s.v := rfl
@[simp] theorem State.setKeys_i (k : Keypad) : (s.setKeys k).i = s.i := rfl
@[simp] theorem State.setKeys_pc (k : Keypad) : (s.setKeys k).pc = s.pc := rfl
@[simp] theorem State.setKeys_stack (k : Keypad) : (s.setKeys k).stack = s.stack := rfl
@[simp] theorem State.setKeys_sp (k : Keypad) : (s.setKeys k).sp = s.sp := rfl
@[simp] theorem State.setKeys_dt (k : Keypad) : (s.setKeys k).dt = s.dt := rfl
@[simp] theorem State.setKeys_st (k : Keypad) : (s.setKeys k).st = s.st := rfl
@[simp] theorem State.setKeys_fb (k : Keypad) : (s.setKeys k).fb = s.fb := rfl
@[simp] theorem State.setKeys_keys (k : Keypad) : (s.setKeys k).keys = k := rfl
@[simp] theorem State.setKeys_mode (k : Keypad) : (s.setKeys k).mode = s.mode := rfl
@[simp] theorem State.setKeys_waitX (k : Keypad) : (s.setKeys k).waitX = s.waitX := rfl
@[simp] theorem State.setKeys_haltReason (k : Keypad) : (s.setKeys k).haltReason = s.haltReason := rfl
@[simp] theorem State.setKeys_draws (k : Keypad) : (s.setKeys k).draws = s.draws := rfl

/-! ## `countDraw` -/

@[simp] theorem State.countDraw_mem : (s.countDraw).mem = s.mem := rfl
@[simp] theorem State.countDraw_v : (s.countDraw).v = s.v := rfl
@[simp] theorem State.countDraw_i : (s.countDraw).i = s.i := rfl
@[simp] theorem State.countDraw_pc : (s.countDraw).pc = s.pc := rfl
@[simp] theorem State.countDraw_stack : (s.countDraw).stack = s.stack := rfl
@[simp] theorem State.countDraw_sp : (s.countDraw).sp = s.sp := rfl
@[simp] theorem State.countDraw_dt : (s.countDraw).dt = s.dt := rfl
@[simp] theorem State.countDraw_st : (s.countDraw).st = s.st := rfl
@[simp] theorem State.countDraw_fb : (s.countDraw).fb = s.fb := rfl
@[simp] theorem State.countDraw_keys : (s.countDraw).keys = s.keys := rfl
@[simp] theorem State.countDraw_mode : (s.countDraw).mode = s.mode := rfl
@[simp] theorem State.countDraw_waitX : (s.countDraw).waitX = s.waitX := rfl
@[simp] theorem State.countDraw_haltReason : (s.countDraw).haltReason = s.haltReason := rfl
@[simp] theorem State.countDraw_draws : (s.countDraw).draws = s.draws + 1 := rfl

/-! ## `raiseFatal` -/

@[simp] theorem State.raiseFatal_mem (r : HaltReason) : (s.raiseFatal r).mem = s.mem := rfl
@[simp] theorem State.raiseFatal_v (r : HaltReason) : (s.raiseFatal r).v = s.v := rfl
@[simp] theorem State.raiseFatal_i (r : HaltReason) : (s.raiseFatal r).i = s.i := rfl
@[simp] theorem State.raiseFatal_pc (r : HaltReason) : (s.raiseFatal r).pc = s.pc := rfl
@[simp] theorem State.raiseFatal_stack (r : HaltReason) : (s.raiseFatal r).stack = s.stack := rfl
@[simp] theorem State.raiseFatal_sp (r : HaltReason) : (s.raiseFatal r).sp = s.sp := rfl
@[simp] theorem State.raiseFatal_dt (r : HaltReason) : (s.raiseFatal r).dt = s.dt := rfl
@[simp] theorem State.raiseFatal_st (r : HaltReason) : (s.raiseFatal r).st = s.st := rfl
@[simp] theorem State.raiseFatal_fb (r : HaltReason) : (s.raiseFatal r).fb = s.fb := rfl
@[simp] theorem State.raiseFatal_keys (r : HaltReason) : (s.raiseFatal r).keys = s.keys := rfl
@[simp] theorem State.raiseFatal_mode (r : HaltReason) : (s.raiseFatal r).mode = .halted := rfl
@[simp] theorem State.raiseFatal_waitX (r : HaltReason) : (s.raiseFatal r).waitX = s.waitX := rfl
@[simp] theorem State.raiseFatal_haltReason (r : HaltReason) : (s.raiseFatal r).haltReason = r := rfl
@[simp] theorem State.raiseFatal_draws (r : HaltReason) : (s.raiseFatal r).draws = s.draws := rfl

/-! ## `beginWait` -/

@[simp] theorem State.beginWait_mem (x : Reg) : (s.beginWait x).mem = s.mem := rfl
@[simp] theorem State.beginWait_v (x : Reg) : (s.beginWait x).v = s.v := rfl
@[simp] theorem State.beginWait_i (x : Reg) : (s.beginWait x).i = s.i := rfl
@[simp] theorem State.beginWait_pc (x : Reg) : (s.beginWait x).pc = s.pc := rfl
@[simp] theorem State.beginWait_stack (x : Reg) : (s.beginWait x).stack = s.stack := rfl
@[simp] theorem State.beginWait_sp (x : Reg) : (s.beginWait x).sp = s.sp := rfl
@[simp] theorem State.beginWait_dt (x : Reg) : (s.beginWait x).dt = s.dt := rfl
@[simp] theorem State.beginWait_st (x : Reg) : (s.beginWait x).st = s.st := rfl
@[simp] theorem State.beginWait_fb (x : Reg) : (s.beginWait x).fb = s.fb := rfl
@[simp] theorem State.beginWait_keys (x : Reg) : (s.beginWait x).keys = s.keys := rfl
@[simp] theorem State.beginWait_mode (x : Reg) : (s.beginWait x).mode = .awaitingKey := rfl
@[simp] theorem State.beginWait_waitX (x : Reg) : (s.beginWait x).waitX = x := rfl
@[simp] theorem State.beginWait_haltReason (x : Reg) : (s.beginWait x).haltReason = s.haltReason := rfl
@[simp] theorem State.beginWait_draws (x : Reg) : (s.beginWait x).draws = s.draws := rfl

/-! ## `endWait` -/

@[simp] theorem State.endWait_mem (k : Fin Config.numKeys) : (s.endWait k).mem = s.mem := rfl
@[simp] theorem State.endWait_v (k : Fin Config.numKeys) : (s.endWait k).v = s.v.set s.waitX.val (BitVec.ofNat 8 k.val) := rfl
@[simp] theorem State.endWait_i (k : Fin Config.numKeys) : (s.endWait k).i = s.i := rfl
@[simp] theorem State.endWait_pc (k : Fin Config.numKeys) : (s.endWait k).pc = wrap12 (s.pc.toNat + 2) := rfl
@[simp] theorem State.endWait_stack (k : Fin Config.numKeys) : (s.endWait k).stack = s.stack := rfl
@[simp] theorem State.endWait_sp (k : Fin Config.numKeys) : (s.endWait k).sp = s.sp := rfl
@[simp] theorem State.endWait_dt (k : Fin Config.numKeys) : (s.endWait k).dt = s.dt := rfl
@[simp] theorem State.endWait_st (k : Fin Config.numKeys) : (s.endWait k).st = s.st := rfl
@[simp] theorem State.endWait_fb (k : Fin Config.numKeys) : (s.endWait k).fb = s.fb := rfl
@[simp] theorem State.endWait_keys (k : Fin Config.numKeys) : (s.endWait k).keys = s.keys := rfl
@[simp] theorem State.endWait_mode (k : Fin Config.numKeys) : (s.endWait k).mode = .running := rfl
@[simp] theorem State.endWait_waitX (k : Fin Config.numKeys) : (s.endWait k).waitX = s.waitX := rfl
@[simp] theorem State.endWait_haltReason (k : Fin Config.numKeys) : (s.endWait k).haltReason = s.haltReason := rfl
@[simp] theorem State.endWait_draws (k : Fin Config.numKeys) : (s.endWait k).draws = s.draws := rfl

/-! ## Conditional and paired updates -/

@[simp] theorem State.skipIf_mem (c : Bool) : (s.skipIf c).mem = s.mem := by cases c <;> rfl
@[simp] theorem State.skipIf_v (c : Bool) : (s.skipIf c).v = s.v := by cases c <;> rfl
@[simp] theorem State.skipIf_i (c : Bool) : (s.skipIf c).i = s.i := by cases c <;> rfl
@[simp] theorem State.skipIf_pc (c : Bool) :
    (s.skipIf c).pc = if c then wrap12 (s.pc.toNat + 2) else s.pc := by
  cases c <;> rfl
@[simp] theorem State.skipIf_stack (c : Bool) : (s.skipIf c).stack = s.stack := by cases c <;> rfl
@[simp] theorem State.skipIf_sp (c : Bool) : (s.skipIf c).sp = s.sp := by cases c <;> rfl
@[simp] theorem State.skipIf_dt (c : Bool) : (s.skipIf c).dt = s.dt := by cases c <;> rfl
@[simp] theorem State.skipIf_st (c : Bool) : (s.skipIf c).st = s.st := by cases c <;> rfl
@[simp] theorem State.skipIf_fb (c : Bool) : (s.skipIf c).fb = s.fb := by cases c <;> rfl
@[simp] theorem State.skipIf_keys (c : Bool) : (s.skipIf c).keys = s.keys := by cases c <;> rfl
@[simp] theorem State.skipIf_mode (c : Bool) : (s.skipIf c).mode = s.mode := by cases c <;> rfl
@[simp] theorem State.skipIf_waitX (c : Bool) : (s.skipIf c).waitX = s.waitX := by cases c <;> rfl
@[simp] theorem State.skipIf_haltReason (c : Bool) : (s.skipIf c).haltReason = s.haltReason := by cases c <;> rfl
@[simp] theorem State.skipIf_draws (c : Bool) : (s.skipIf c).draws = s.draws := by cases c <;> rfl
@[simp] theorem State.setFlagThen_mem (x : Reg) (a b : Byte) : (s.setFlagThen x a b).mem = s.mem := rfl
@[simp] theorem State.setFlagThen_v (x : Reg) (a b : Byte) :
    (s.setFlagThen x a b).v = (s.v.set vf.val a).set x.val b := rfl
@[simp] theorem State.setFlagThen_i (x : Reg) (a b : Byte) : (s.setFlagThen x a b).i = s.i := rfl
@[simp] theorem State.setFlagThen_pc (x : Reg) (a b : Byte) : (s.setFlagThen x a b).pc = s.pc := rfl
@[simp] theorem State.setFlagThen_stack (x : Reg) (a b : Byte) : (s.setFlagThen x a b).stack = s.stack := rfl
@[simp] theorem State.setFlagThen_sp (x : Reg) (a b : Byte) : (s.setFlagThen x a b).sp = s.sp := rfl
@[simp] theorem State.setFlagThen_dt (x : Reg) (a b : Byte) : (s.setFlagThen x a b).dt = s.dt := rfl
@[simp] theorem State.setFlagThen_st (x : Reg) (a b : Byte) : (s.setFlagThen x a b).st = s.st := rfl
@[simp] theorem State.setFlagThen_fb (x : Reg) (a b : Byte) : (s.setFlagThen x a b).fb = s.fb := rfl
@[simp] theorem State.setFlagThen_keys (x : Reg) (a b : Byte) : (s.setFlagThen x a b).keys = s.keys := rfl
@[simp] theorem State.setFlagThen_mode (x : Reg) (a b : Byte) : (s.setFlagThen x a b).mode = s.mode := rfl
@[simp] theorem State.setFlagThen_waitX (x : Reg) (a b : Byte) : (s.setFlagThen x a b).waitX = s.waitX := rfl
@[simp] theorem State.setFlagThen_haltReason (x : Reg) (a b : Byte) : (s.setFlagThen x a b).haltReason = s.haltReason := rfl
@[simp] theorem State.setFlagThen_draws (x : Reg) (a b : Byte) : (s.setFlagThen x a b).draws = s.draws := rfl
@[simp] theorem State.resetWith_mem (font : Vector Byte Config.fontSize) :
    (State.resetWith font).mem = Memory.resetWith font := rfl
@[simp] theorem State.resetWith_v (font : Vector Byte Config.fontSize) :
    (State.resetWith font).v = State.reset.v := rfl
@[simp] theorem State.resetWith_i (font : Vector Byte Config.fontSize) :
    (State.resetWith font).i = State.reset.i := rfl
@[simp] theorem State.resetWith_pc (font : Vector Byte Config.fontSize) :
    (State.resetWith font).pc = State.reset.pc := rfl
@[simp] theorem State.resetWith_stack (font : Vector Byte Config.fontSize) :
    (State.resetWith font).stack = State.reset.stack := rfl
@[simp] theorem State.resetWith_sp (font : Vector Byte Config.fontSize) :
    (State.resetWith font).sp = State.reset.sp := rfl
@[simp] theorem State.resetWith_dt (font : Vector Byte Config.fontSize) :
    (State.resetWith font).dt = State.reset.dt := rfl
@[simp] theorem State.resetWith_st (font : Vector Byte Config.fontSize) :
    (State.resetWith font).st = State.reset.st := rfl
@[simp] theorem State.resetWith_fb (font : Vector Byte Config.fontSize) :
    (State.resetWith font).fb = State.reset.fb := rfl
@[simp] theorem State.resetWith_keys (font : Vector Byte Config.fontSize) :
    (State.resetWith font).keys = State.reset.keys := rfl
@[simp] theorem State.resetWith_mode (font : Vector Byte Config.fontSize) :
    (State.resetWith font).mode = State.reset.mode := rfl
@[simp] theorem State.resetWith_waitX (font : Vector Byte Config.fontSize) :
    (State.resetWith font).waitX = State.reset.waitX := rfl
@[simp] theorem State.resetWith_haltReason (font : Vector Byte Config.fontSize) :
    (State.resetWith font).haltReason = State.reset.haltReason := rfl
@[simp] theorem State.resetWith_draws (font : Vector Byte Config.fontSize) :
    (State.resetWith font).draws = State.reset.draws := rfl

/-! ## Registers read back -/

theorem State.getV_setV (x y : Reg) (b : Byte) : (s.setV x b).getV y = if y = x then b else s.getV y := by
  unfold State.getV State.setV
  rw [Vector.getElem_set]
  by_cases h : x = y
  · simp [h]
  · have h' : ¬ x.val = y.val := fun e => h (Fin.ext e)
    rw [if_neg h', if_neg (fun e => h e.symm)]

@[simp] theorem State.getV_setV_same (x : Reg) (b : Byte) : (s.setV x b).getV x = b := by
  rw [State.getV_setV, if_pos rfl]

theorem State.getV_setV_other (x y : Reg) (b : Byte) (h : y ≠ x) : (s.setV x b).getV y = s.getV y := by
  rw [State.getV_setV, if_neg h]

/-- The flag is written first and the result last: at x = 0xF the result survives (R103). -/
theorem State.getV_setFlagThen (x y : Reg) (a b : Byte) :
    (s.setFlagThen x a b).getV y = if y = x then b else if y = vf then a else s.getV y := by
  unfold State.setFlagThen
  rw [State.getV_setV, State.getV_setV]

/-- Reading a register depends on the register file alone. -/
theorem State.getV_congr (s t : State) (h : t.v = s.v) (y : Reg) : t.getV y = s.getV y := by
  unfold State.getV
  rw [h]

@[simp] theorem State.setI_getV (w : Word) (y : Reg) : (s.setI w).getV y = s.getV y := rfl
@[simp] theorem State.setPc_getV (n : Nat) (y : Reg) : (s.setPc n).getV y = s.getV y := rfl
@[simp] theorem State.advance_getV (y : Reg) : (s.advance).getV y = s.getV y := rfl
@[simp] theorem State.setDt_getV (b : Byte) (y : Reg) : (s.setDt b).getV y = s.getV y := rfl
@[simp] theorem State.setSt_getV (b : Byte) (y : Reg) : (s.setSt b).getV y = s.getV y := rfl
@[simp] theorem State.setMem_getV (m : Memory) (y : Reg) : (s.setMem m).getV y = s.getV y := rfl
@[simp] theorem State.setFb_getV (fb : Display) (y : Reg) : (s.setFb fb).getV y = s.getV y := rfl
@[simp] theorem State.setKeys_getV (k : Keypad) (y : Reg) : (s.setKeys k).getV y = s.getV y := rfl
@[simp] theorem State.countDraw_getV (y : Reg) : (s.countDraw).getV y = s.getV y := rfl
@[simp] theorem State.raiseFatal_getV (r : HaltReason) (y : Reg) : (s.raiseFatal r).getV y = s.getV y := rfl
@[simp] theorem State.beginWait_getV (x : Reg) (y : Reg) : (s.beginWait x).getV y = s.getV y := rfl
@[simp] theorem State.skipIf_getV (c : Bool) (y : Reg) : (s.skipIf c).getV y = s.getV y := by cases c <;> rfl

end Sys2Proof.Machine
end

