-- ==== Sys2Proof/Laws/Memory.lean ====
section
/-! SUPPORT. The laws of memory (spec/20_memory.md R41, R44, R50): a read after a write gives the value written, a write
leaves every other byte alone, and every operation keeps the canonical form. -/

namespace Sys2Proof.Machine

/-! ## The list -/

theorem Memory.lookup_nil (a : Nat) : Memory.lookup [] a = Memory.background a := rfl

theorem Memory.lookup_cons (k a : Nat) (c : Byte) (m : Memory) :
    Memory.lookup ((k, c) :: m) a = if k = a then c else Memory.lookup m a := rfl

theorem Memory.wfFrom_cons (lo k : Nat) (c : Byte) (m : Memory) :
    Memory.wfFrom lo ((k, c) :: m) = true ↔
      lo ≤ k ∧ k < Config.memSize ∧ c ≠ Memory.background k ∧ Memory.wfFrom (k + 1) m = true := by
  simp [Memory.wfFrom, Bool.and_eq_true, and_assoc]

/-- Canonical from a higher address is canonical from a lower one. -/
theorem Memory.wfFrom_mono (m : Memory) (lo lo' : Nat) (h : lo ≤ lo') (hm : Memory.wfFrom lo' m = true) :
    Memory.wfFrom lo m = true := by
  cases m with
  | nil => rfl
  | cons kc m =>
    obtain ⟨k, c⟩ := kc
    rw [Memory.wfFrom_cons] at hm ⊢
    exact ⟨by omega, hm.2⟩

/-- An address below a canonical list reads as its background. -/
theorem Memory.lookup_below (m : Memory) (lo a : Nat) (h : a < lo) (hm : Memory.wfFrom lo m = true) :
    Memory.lookup m a = Memory.background a := by
  induction m generalizing lo with
  | nil => rfl
  | cons kc m ih =>
    obtain ⟨k, c⟩ := kc
    rw [Memory.wfFrom_cons] at hm
    rw [Memory.lookup_cons, if_neg (by omega)]
    exact ih (k + 1) (by omega) hm.2.2.2

/-- What is put is read back, from a canonical list. -/
theorem Memory.lookup_put_same (m : Memory) (lo a : Nat) (b : Byte) (hm : Memory.wfFrom lo m = true) :
    Memory.lookup (Memory.put m a b) a = b := by
  induction m generalizing lo with
  | nil =>
    unfold Memory.put
    split
    · next h => rw [h]; rfl
    · simp [Memory.lookup]
  | cons kc m ih =>
    obtain ⟨k, c⟩ := kc
    have hm' := (Memory.wfFrom_cons _ _ _ _).1 hm
    unfold Memory.put
    split
    · next h =>
      split
      · next hb =>
        rw [Memory.lookup_cons, if_neg (by omega), Memory.lookup_below m (k + 1) a (by omega) hm'.2.2.2, hb]
      · simp [Memory.lookup]
    · split
      · next h =>
        subst h
        split
        · next hb => rw [Memory.lookup_below m (a + 1) a (by omega) hm'.2.2.2, hb]
        · simp [Memory.lookup]
      · next h => rw [Memory.lookup_cons, if_neg (fun e => h e.symm)]; exact ih (k + 1) hm'.2.2.2

/-- A put leaves every other address alone, whatever the list. -/
theorem Memory.lookup_put_other (m : Memory) (a a' : Nat) (b : Byte) (h : a' ≠ a) :
    Memory.lookup (Memory.put m a b) a' = Memory.lookup m a' := by
  induction m with
  | nil =>
    unfold Memory.put
    split
    · rfl
    · rw [Memory.lookup_cons, if_neg (fun e => h e.symm)]
  | cons kc m ih =>
    obtain ⟨k, c⟩ := kc
    unfold Memory.put
    split
    · split
      · rfl
      · rw [Memory.lookup_cons, if_neg (fun e => h e.symm)]
    · split
      · next hk =>
        subst hk
        split
        · rw [Memory.lookup_cons, if_neg (fun e => h e.symm)]
        · rw [Memory.lookup_cons, if_neg (fun e => h e.symm), Memory.lookup_cons, if_neg (fun e => h e.symm)]
      · rw [Memory.lookup_cons, Memory.lookup_cons, ih]

/-- A put of an address in range keeps the canonical form. -/
theorem Memory.wfFrom_put (m : Memory) (lo a : Nat) (b : Byte) (hlo : lo ≤ a) (ha : a < Config.memSize)
    (hm : Memory.wfFrom lo m = true) : Memory.wfFrom lo (Memory.put m a b) = true := by
  induction m generalizing lo with
  | nil =>
    unfold Memory.put
    split
    · rfl
    · next hb => rw [Memory.wfFrom_cons]; exact ⟨hlo, ha, hb, rfl⟩
  | cons kc m ih =>
    obtain ⟨k, c⟩ := kc
    have hm' := (Memory.wfFrom_cons _ _ _ _).1 hm
    unfold Memory.put
    split
    · next hk =>
      split
      · exact hm
      · next hb =>
        rw [Memory.wfFrom_cons, Memory.wfFrom_cons]
        exact ⟨hlo, ha, hb, hk, hm'.2⟩
    · split
      · next hk =>
        subst hk
        split
        · exact Memory.wfFrom_mono m lo (a + 1) (by omega) hm'.2.2.2
        · next hb => rw [Memory.wfFrom_cons]; exact ⟨hlo, ha, hb, hm'.2.2.2⟩
      · next hk =>
        rw [Memory.wfFrom_cons]
        exact ⟨hm'.1, hm'.2.1, hm'.2.2.1, ih (k + 1) (by omega) hm'.2.2.2⟩

/-! ## Reads and writes (R41, R44, R50) -/

theorem Memory.wf_nil : Memory.wf [] = true := rfl

theorem Memory.wf_write (m : Memory) (a : Nat) (b : Byte) (hm : Memory.wf m = true) :
    Memory.wf (Memory.write m a b) = true :=
  Memory.wfFrom_put m 0 _ b (Nat.zero_le _) (Nat.mod_lt _ (by decide)) hm

theorem Memory.wf_writeBytes (m : Memory) (a : Nat) (bs : List Byte) (hm : Memory.wf m = true) :
    Memory.wf (Memory.writeBytes m a bs) = true := by
  induction bs generalizing m a with
  | nil => exact hm
  | cons b bs ih => exact ih _ _ (Memory.wf_write m a b hm)

theorem Memory.wf_resetWith (font : Vector Byte Config.fontSize) : Memory.wf (Memory.resetWith font) = true :=
  Memory.wf_writeBytes _ _ _ Memory.wf_nil

/-- Every access address is reduced modulo 4096 (R41). -/
theorem Memory.read_mod (m : Memory) (a : Nat) : Memory.read m (a % Config.memSize) = Memory.read m a := by
  unfold Memory.read
  rw [Nat.mod_mod]

theorem Memory.read_write_same (m : Memory) (a a' : Nat) (b : Byte) (hm : Memory.wf m = true)
    (h : a' % Config.memSize = a % Config.memSize) : Memory.read (Memory.write m a b) a' = b := by
  unfold Memory.read Memory.write
  rw [h]
  exact Memory.lookup_put_same m 0 _ b hm

theorem Memory.read_write_other (m : Memory) (a a' : Nat) (b : Byte)
    (h : a' % Config.memSize ≠ a % Config.memSize) : Memory.read (Memory.write m a b) a' = Memory.read m a' :=
  Memory.lookup_put_other m _ _ b h

/-- A write of consecutive bytes leaves every address alone that none of them falls on. -/
theorem Memory.read_writeBytes_other (m : Memory) (a c : Nat) (bs : List Byte)
    (h : ∀ k, k < bs.length → c % Config.memSize ≠ (a + k) % Config.memSize) :
    Memory.read (Memory.writeBytes m a bs) c = Memory.read m c := by
  induction bs generalizing m a with
  | nil => rfl
  | cons b bs ih =>
    rw [Memory.writeBytes, ih]
    · exact Memory.read_write_other m a c b (h 0 (Nat.zero_lt_succ _))
    · intro k hk
      have := h (k + 1) (Nat.succ_lt_succ hk)
      rwa [show a + 1 + k = a + (k + 1) by omega]

/-- A write of at most 4096 consecutive bytes: the k-th is read back at its address. -/
theorem Memory.read_writeBytes_at (m : Memory) (a c k : Nat) (bs : List Byte) (hm : Memory.wf m = true)
    (hlen : bs.length ≤ Config.memSize) (hk : k < bs.length) (hc : c % Config.memSize = (a + k) % Config.memSize) :
    Memory.read (Memory.writeBytes m a bs) c = bs[k] := by
  induction bs generalizing m a k with
  | nil => exact absurd hk (Nat.not_lt_zero _)
  | cons b bs ih =>
    rw [List.length_cons] at hk hlen
    rw [Memory.writeBytes]
    cases k with
    | zero =>
      rw [Memory.read_writeBytes_other]
      · exact Memory.read_write_same m a c b hm hc
      · intro j hj
        simp only [Config.memSize] at *
        omega
    | succ k =>
      rw [List.getElem_cons_succ]
      refine ih _ _ _ (Memory.wf_write m a b hm) (by omega) (by omega) ?_
      rw [hc, show a + 1 + k = a + (k + 1) by omega]

end Sys2Proof.Machine
end

