-- ==== Sys2Proof/Laws/Ops.lean ====
section
/-! SUPPORT. One lemma per shared operation: everything it can do, for callers to cite (spec/10_state.md R25, R26;
spec/40_step_cycle.md R80-R85; spec/44_display.md R132; spec/45_timers_keys.md R146). -/

namespace Sys2Proof.Machine

/-! ## 12-bit values (R25, R114) -/

theorem wrap12_toNat (n : Nat) : (wrap12 n).toNat = n % Config.memSize := by
  unfold wrap12
  rw [BitVec.toNat_ofNat]
  exact Nat.mod_eq_of_lt (lt_trans (Nat.mod_lt _ (by decide)) (by decide))

theorem wrap12_le (n : Nat) : (wrap12 n).toNat ≤ 0xFFF := by
  rw [wrap12_toNat]
  have : n % Config.memSize < Config.memSize := Nat.mod_lt _ (by decide)
  simp only [Config.memSize] at this ⊢
  omega

/-- A value already in 12 bits is not changed. -/
theorem wrap12_of_lt (n : Nat) (h : n < Config.memSize) : wrap12 n = BitVec.ofNat 16 n := by
  unfold wrap12
  rw [Nat.mod_eq_of_lt h]

/-! ## The call stack (R26) -/

theorem State.push_full (s : State) (w : Word) (h : s.sp.val = Config.stackDepth) : s.push w = none := by
  unfold State.push
  rw [dif_neg (by omega)]

/-- A push with room: entry `j = SP` receives the value, and SP rises (R26). -/
theorem State.push_room (s : State) (w : Word) (j : Fin Config.stackDepth) (h : s.sp = j.castSucc) :
    s.push w = some { s with stack := s.stack.set j.val w, sp := j.succ } := by
  have hj : s.sp.val = j.val := congrArg Fin.val h
  unfold State.push
  rw [dif_pos (by rw [hj]; exact j.isLt)]
  simp only [hj]
  rfl

theorem State.pop_empty (s : State) (h : s.sp.val = 0) : s.pop = none := by
  unfold State.pop
  rw [dif_pos h]

/-- A pop with an entry: the top entry `j = SP - 1` is answered, and SP falls (R26). -/
theorem State.pop_entry (s : State) (j : Fin Config.stackDepth) (h : s.sp = j.succ) :
    s.pop = some (s.stack[j.val], { s with sp := j.castSucc }) := by
  have hj : s.sp.val = j.val + 1 := congrArg Fin.val h
  unfold State.pop
  rw [dif_neg (by omega)]
  simp only [hj, Nat.add_sub_cancel]
  rfl

/-- The depth count is 0 or one above an entry. -/
theorem State.sp_zero_or_succ (s : State) : s.sp.val = 0 ∨ ∃ j : Fin Config.stackDepth, s.sp = j.succ := by
  cases h : s.sp using Fin.cases with
  | zero => exact .inl rfl
  | succ j => exact .inr ⟨j, rfl⟩

/-- The depth count is 16 or the index of a free entry. -/
theorem State.sp_full_or_free (s : State) :
    s.sp.val = Config.stackDepth ∨ ∃ j : Fin Config.stackDepth, s.sp = j.castSucc := by
  cases h : s.sp using Fin.lastCases with
  | last => exact .inl rfl
  | cast j => exact .inr ⟨j, rfl⟩

/-! ## Runs of registers (R124, R125) -/

theorem nthReg_val (i : Nat) (h : i < 16) : (nthReg i).val = i := by
  unfold nthReg
  exact Nat.mod_eq_of_lt h

/-- A run of loads writes registers only. -/
theorem loadRegs_eq (s : State) (n : Nat) : ∃ v, loadRegs s n = { s with v := v } := by
  unfold loadRegs
  generalize List.range n = l
  suffices h : ∀ (l : List Nat) (t : State), (∃ v, t = { s with v := v }) →
      ∃ v, l.foldl (fun t i => t.setV (nthReg i) (Memory.read s.mem (s.indexed i))) t = { s with v := v } from
    h l s ⟨s.v, rfl⟩
  intro l
  induction l with
  | nil => exact fun t ht => ht
  | cons i l ih =>
    rintro t ⟨v, rfl⟩
    exact ih _ ⟨_, rfl⟩

/-- Each of the first n registers is loaded from its byte, and no other register changes. -/
theorem getV_loadRegs (s : State) (n : Nat) (hn : n ≤ 16) (r : Reg) :
    (loadRegs s n).getV r = if r.val < n then Memory.read s.mem (s.i.toNat + r.val) else s.getV r := by
  unfold loadRegs
  induction n with
  | zero => rfl
  | succ n ih =>
    rw [List.range_succ, List.foldl_append]
    simp only [List.foldl_cons, List.foldl_nil]
    rw [State.getV_setV, ih (by omega)]
    have hv := nthReg_val n (by omega)
    by_cases h : r = nthReg n
    · rw [if_pos h, if_pos (by rw [h, hv]; omega), h, hv]
      rfl
    · have hne : r.val ≠ n := fun e => h (Fin.ext (by rw [hv]; exact e))
      rw [if_neg h]
      by_cases hl : r.val < n
      · rw [if_pos hl, if_pos (by omega)]
      · rw [if_neg hl, if_neg (by omega)]

/-! ## The display (R130, R132) -/

theorem Display.pixel_clear (r : Fin Config.displayH) (c : Fin Config.displayW) :
    Display.clear.pixel r c = false := by
  simp [Display.pixel, Display.clear]

theorem Display.pixel_flip (fb : Display) (r r' : Fin Config.displayH) (c c' : Fin Config.displayW) :
    (fb.flip r c).pixel r' c' = if r' = r ∧ c' = c then !fb.pixel r c else fb.pixel r' c' := by
  unfold Display.pixel Display.flip
  by_cases hr : r' = r
  · subst hr
    rw [Vector.getElem_set_self]
    by_cases hc : c' = c
    · subst hc
      simp
    · have hv : ¬ c.val = c'.val := fun e => hc (Fin.ext e.symm)
      simp [hc, hv]
  · have hv : ¬ r.val = r'.val := fun e => hr (Fin.ext e.symm)
    simp [hr, hv]

/-! ## The keypad (R146) -/

/-- The least key that is down is down, and every lower key is up. -/
theorem lowestKey_some (keys : Keypad) (k : Fin Config.numKeys) (h : lowestKey keys = some k) :
    keys[k.val] = true ∧ ∀ j : Fin Config.numKeys, j < k → keys[j.val] = false := by
  unfold lowestKey at h
  rw [List.find?_eq_some_iff_getElem] at h
  obtain ⟨hk, i, hi, he, hlow⟩ := h
  refine ⟨hk, fun j hj => ?_⟩
  have hik : i = k.val := by
    have := congrArg Fin.val he
    simpa using this
  have := hlow j.val (by have : j.val < k.val := hj; omega)
  simpa using this

/-- No least key exactly when every key is up. -/
theorem lowestKey_none (keys : Keypad) :
    lowestKey keys = none ↔ ∀ k : Fin Config.numKeys, keys[k.val] = false := by
  unfold lowestKey
  rw [List.find?_eq_none]
  simp

/-! ## The step (R80) -/

theorem step_running (s : State) (i : Instr) (hm : s.mode = .running) (hd : decode s.fetchWord = .instr i) :
    step s = exec i s := by
  unfold step
  rw [hm, hd]

theorem step_unknown (s : State) (op : Word) (hm : s.mode = .running) (hd : decode s.fetchWord = .unknown op) :
    step s = .next s.advance := by
  unfold step
  rw [hm, hd]
  rfl

theorem step_halted (s : State) (hm : s.mode = .halted) : step s = .next s := by
  unfold step
  rw [hm]
  rfl

theorem step_awaiting (s : State) (hm : s.mode = .awaitingKey) : step s = .next s.keyWaitStep := by
  unfold step
  rw [hm]

/-- The four kinds of step, which are all there are (R80). -/
theorem step_cases (s t : State) (h : step s = .next t) :
    (s.mode = .halted ∧ t = s) ∨
    (s.mode = .awaitingKey ∧ t = s.keyWaitStep) ∨
    (∃ i, s.mode = .running ∧ decode s.fetchWord = .instr i ∧ exec i s = .next t) ∨
    (∃ op, s.mode = .running ∧ decode s.fetchWord = .unknown op ∧ t = s.advance) := by
  cases hm : s.mode with
  | halted =>
    rw [step_halted s hm] at h
    exact .inl ⟨rfl, (Host.Outcome.next.inj h).symm⟩
  | awaitingKey =>
    rw [step_awaiting s hm] at h
    exact .inr (.inl ⟨rfl, (Host.Outcome.next.inj h).symm⟩)
  | running =>
    cases hd : decode s.fetchWord with
    | instr i => exact .inr (.inr (.inl ⟨i, rfl, rfl, by rw [← step_running s i hm hd]; exact h⟩))
    | unknown op =>
      rw [step_unknown s op hm hd] at h
      exact .inr (.inr (.inr ⟨op, rfl, rfl, (Host.Outcome.next.inj h).symm⟩))

/-! ## Skips, return and call, from the start of the step (R90, R92, R98) -/

/-- A skipping instruction leaves PC two or four past p, and nothing else changes (R98). -/
theorem State.advance_skipIf (s : State) (c : Bool) :
    s.advance.skipIf c = { s with pc := wrap12 (s.pc.toNat + if c then 4 else 2) } := by
  cases c
  · rfl
  · simp only [State.skipIf, State.advance, State.setPc, if_true, wrap12, BitVec.toNat_ofNat, Config.memSize]
    congr 2
    omega

/-- Everything a return can do (R90). -/
theorem execRet_cases (s t : State) (h : execRet s = .next t) :
    (s.sp.val = 0 ∧ t = s.raiseFatal .stackUnderflow) ∨
    ∃ j : Fin Config.stackDepth, s.sp = j.succ ∧
      t = { s with pc := wrap12 (s.stack[j.val]).toNat, sp := j.castSucc } := by
  unfold execRet at h
  rcases s.sp_zero_or_succ with h0 | ⟨j, hj⟩
  · rw [State.pop_empty s.advance h0] at h
    exact .inl ⟨h0, (Host.Outcome.next.inj h).symm⟩
  · rw [State.pop_entry s.advance j hj] at h
    exact .inr ⟨j, hj, (Host.Outcome.next.inj h).symm⟩

/-- Everything a call can do (R92). -/
theorem execCall_cases (nnn : Addr) (s t : State) (h : execCall nnn s = .next t) :
    (s.sp.val = Config.stackDepth ∧ t = s.raiseFatal .stackOverflow) ∨
    ∃ j : Fin Config.stackDepth, s.sp = j.castSucc ∧
      t = { s with stack := s.stack.set j.val (wrap12 (s.pc.toNat + 2)), sp := j.succ, pc := wrap12 nnn.toNat } := by
  unfold execCall at h
  rcases s.sp_full_or_free with h0 | ⟨j, hj⟩
  · rw [State.push_full s.advance _ h0] at h
    exact .inl ⟨h0, (Host.Outcome.next.inj h).symm⟩
  · rw [State.push_room s.advance _ j hj] at h
    exact .inr ⟨j, hj, (Host.Outcome.next.inj h).symm⟩

end Sys2Proof.Machine
end

