-- ==== Sys2Proof/Laws/PerInstr.lean ====
section
/-! SUPPORT. Facts of every instruction as syntax, one lemma per constructor. `OperandsFit`: every operand fits its opcode
field (spec/30_encoding.md R61, R63). `TableBits`: the word of the instruction has the fixed bits of its own row of
spec/opcode_table.json (R64). -/

namespace Sys2Proof

/-! ## Operands fit by their types -/

theorem fits_reg (x : Reg) : (Field.reg x.val).fits = true := decide_eq_true x.isLt
theorem fits_addr (a : Addr) : (Field.addr a.toNat).fits = true := decide_eq_true a.isLt
theorem fits_byte (b : Byte) : (Field.byte b.toNat).fits = true := decide_eq_true b.isLt
theorem fits_nibble (n : Nibble) : (Field.nibble n.toNat).fits = true := decide_eq_true n.isLt

theorem allFit_addr (a : Addr) : [Field.addr a.toNat].all Field.fits = true := by simp [fits_addr]
theorem allFit_reg (x : Reg) : [Field.reg x.val].all Field.fits = true := by simp [fits_reg]
theorem allFit_regByte (x : Reg) (b : Byte) : [Field.reg x.val, Field.byte b.toNat].all Field.fits = true := by
  simp [fits_reg, fits_byte]
theorem allFit_regReg (x y : Reg) : [Field.reg x.val, Field.reg y.val].all Field.fits = true := by
  simp [fits_reg]
theorem allFit_regRegNibble (x y : Reg) (n : Nibble) :
    [Field.reg x.val, Field.reg y.val, Field.nibble n.toNat].all Field.fits = true := by
  simp [fits_reg, fits_nibble]

/-! ## The fixed bits of each format -/

theorem IsFamily.getElem {f : Word} (hf : IsFamily f) (k : Nat) (hk : k < 12) : f[k] = false := by
  rw [← BitVec.getLsbD_eq_getElem]
  exact hf k hk

theorem encNnn_and_mask (f : Word) (nnn : Addr) (hf : IsFamily f) : encNnn f nnn &&& 0xF000#16 = f := by
  apply BitVec.eq_of_getLsbD_eq
  intro k hk
  rw [BitVec.getLsbD_and, encNnn_getLsbD]
  interval_cases k <;> simp [hf.getElem]

theorem encXkk_and_mask (f : Word) (x : Reg) (kk : Byte) (hf : IsFamily f) : encXkk f x kk &&& 0xF000#16 = f := by
  apply BitVec.eq_of_getLsbD_eq
  intro k hk
  rw [BitVec.getLsbD_and, encXkk_getLsbD]
  interval_cases k <;> simp [hf.getElem, reg_testBit_high x]

theorem encXf_and_mask (f : Word) (x : Reg) (kk : Byte) (hf : IsFamily f) :
    encXkk f x kk &&& 0xF0FF#16 = f ||| kk.setWidth 16 := by
  apply BitVec.eq_of_getLsbD_eq
  intro k hk
  rw [BitVec.getLsbD_and, encXkk_getLsbD, BitVec.getLsbD_or, BitVec.getLsbD_setWidth]
  interval_cases k <;> simp [hf.getElem, reg_testBit_high x]

theorem encXyn_and_mask (f : Word) (x y : Reg) (n : Nibble) (hf : IsFamily f) :
    encXyn f x y n &&& 0xF000#16 = f := by
  apply BitVec.eq_of_getLsbD_eq
  intro k hk
  rw [BitVec.getLsbD_and, encXyn_getLsbD]
  interval_cases k <;> simp [hf.getElem, reg_testBit_high x, reg_testBit_high y]

theorem encXyf_and_mask (f : Word) (x y : Reg) (n : Nibble) (hf : IsFamily f) :
    encXyn f x y n &&& 0xF00F#16 = f ||| n.setWidth 16 := by
  apply BitVec.eq_of_getLsbD_eq
  intro k hk
  rw [BitVec.getLsbD_and, encXyn_getLsbD, BitVec.getLsbD_or, BitVec.getLsbD_setWidth]
  interval_cases k <;> simp [hf.getElem, reg_testBit_high x, reg_testBit_high y]

/-- The low 12 bits of a literal family word, checked. -/
theorem isFamily_of (f : Word) (h : f.extractLsb' 0 12 = 0#12) : IsFamily f := by
  intro k hk
  have := congrArg (fun w => w.getLsbD k) h
  simpa [hk] using this

theorem covers_of_eq (r : TableRow) (op : Word) (h : op &&& r.mask = r.pattern) : r.covers op = true := by
  rw [TableRow.covers, h]
  exact beq_self_eq_true _

end Sys2Proof

/-- Every operand fits its opcode field. -/
def Sys2Proof.Laws.OperandsFit.Statement (i : Sys2Proof.Instr) : Prop := i.wellFormed = true

/-- The instruction's word has the fixed bits of its own table row, which is a row of the table. -/
def Sys2Proof.Laws.TableBits.Statement (i : Sys2Proof.Instr) : Prop :=
  i.tableRow.covers (Sys2Proof.encode i) = true ∧ i.tableRow ∈ Sys2Proof.opcodeTable

namespace Sys2Proof.Laws
open Sys2Proof

/-! ## OperandsFit -/

theorem OperandsFit.cls : OperandsFit.Statement (.cls) := rfl
theorem OperandsFit.ret : OperandsFit.Statement (.ret) := rfl
theorem OperandsFit.jp (nnn : Addr) : OperandsFit.Statement (.jp nnn) := allFit_addr nnn
theorem OperandsFit.call (nnn : Addr) : OperandsFit.Statement (.call nnn) := allFit_addr nnn
theorem OperandsFit.seByte (x : Reg) (kk : Byte) : OperandsFit.Statement (.seByte x kk) := allFit_regByte x kk
theorem OperandsFit.sneByte (x : Reg) (kk : Byte) : OperandsFit.Statement (.sneByte x kk) := allFit_regByte x kk
theorem OperandsFit.seReg (x y : Reg) : OperandsFit.Statement (.seReg x y) := allFit_regReg x y
theorem OperandsFit.ldByte (x : Reg) (kk : Byte) : OperandsFit.Statement (.ldByte x kk) := allFit_regByte x kk
theorem OperandsFit.addByte (x : Reg) (kk : Byte) : OperandsFit.Statement (.addByte x kk) := allFit_regByte x kk
theorem OperandsFit.ldReg (x y : Reg) : OperandsFit.Statement (.ldReg x y) := allFit_regReg x y
theorem OperandsFit.orReg (x y : Reg) : OperandsFit.Statement (.orReg x y) := allFit_regReg x y
theorem OperandsFit.andReg (x y : Reg) : OperandsFit.Statement (.andReg x y) := allFit_regReg x y
theorem OperandsFit.xorReg (x y : Reg) : OperandsFit.Statement (.xorReg x y) := allFit_regReg x y
theorem OperandsFit.addReg (x y : Reg) : OperandsFit.Statement (.addReg x y) := allFit_regReg x y
theorem OperandsFit.subReg (x y : Reg) : OperandsFit.Statement (.subReg x y) := allFit_regReg x y
theorem OperandsFit.shr (x y : Reg) : OperandsFit.Statement (.shr x y) := allFit_regReg x y
theorem OperandsFit.subnReg (x y : Reg) : OperandsFit.Statement (.subnReg x y) := allFit_regReg x y
theorem OperandsFit.shl (x y : Reg) : OperandsFit.Statement (.shl x y) := allFit_regReg x y
theorem OperandsFit.sneReg (x y : Reg) : OperandsFit.Statement (.sneReg x y) := allFit_regReg x y
theorem OperandsFit.ldI (nnn : Addr) : OperandsFit.Statement (.ldI nnn) := allFit_addr nnn
theorem OperandsFit.jpV0 (nnn : Addr) : OperandsFit.Statement (.jpV0 nnn) := allFit_addr nnn
theorem OperandsFit.rnd (x : Reg) (kk : Byte) : OperandsFit.Statement (.rnd x kk) := allFit_regByte x kk
theorem OperandsFit.drw (x y : Reg) (n : Nibble) : OperandsFit.Statement (.drw x y n) := allFit_regRegNibble x y n
theorem OperandsFit.skp (x : Reg) : OperandsFit.Statement (.skp x) := allFit_reg x
theorem OperandsFit.sknp (x : Reg) : OperandsFit.Statement (.sknp x) := allFit_reg x
theorem OperandsFit.ldVxDt (x : Reg) : OperandsFit.Statement (.ldVxDt x) := allFit_reg x
theorem OperandsFit.ldVxK (x : Reg) : OperandsFit.Statement (.ldVxK x) := allFit_reg x
theorem OperandsFit.ldDtVx (x : Reg) : OperandsFit.Statement (.ldDtVx x) := allFit_reg x
theorem OperandsFit.ldStVx (x : Reg) : OperandsFit.Statement (.ldStVx x) := allFit_reg x
theorem OperandsFit.addI (x : Reg) : OperandsFit.Statement (.addI x) := allFit_reg x
theorem OperandsFit.ldF (x : Reg) : OperandsFit.Statement (.ldF x) := allFit_reg x
theorem OperandsFit.ldB (x : Reg) : OperandsFit.Statement (.ldB x) := allFit_reg x
theorem OperandsFit.ldMemVx (x : Reg) : OperandsFit.Statement (.ldMemVx x) := allFit_reg x
theorem OperandsFit.ldVxMem (x : Reg) : OperandsFit.Statement (.ldVxMem x) := allFit_reg x

/-! ## TableBits -/

theorem TableBits.cls : TableBits.Statement (.cls) :=
  ⟨rfl, by decide⟩
theorem TableBits.ret : TableBits.Statement (.ret) :=
  ⟨rfl, by decide⟩
theorem TableBits.jp (nnn : Addr) : TableBits.Statement (.jp nnn) :=
  ⟨covers_of_eq _ _ (encNnn_and_mask _ nnn (isFamily_of _ rfl)), by simp [Instr.tableRow, opcodeTable]⟩
theorem TableBits.call (nnn : Addr) : TableBits.Statement (.call nnn) :=
  ⟨covers_of_eq _ _ (encNnn_and_mask _ nnn (isFamily_of _ rfl)), by simp [Instr.tableRow, opcodeTable]⟩
theorem TableBits.seByte (x : Reg) (kk : Byte) : TableBits.Statement (.seByte x kk) :=
  ⟨covers_of_eq _ _ (encXkk_and_mask _ x kk (isFamily_of _ rfl)), by simp [Instr.tableRow, opcodeTable]⟩
theorem TableBits.sneByte (x : Reg) (kk : Byte) : TableBits.Statement (.sneByte x kk) :=
  ⟨covers_of_eq _ _ (encXkk_and_mask _ x kk (isFamily_of _ rfl)), by simp [Instr.tableRow, opcodeTable]⟩
theorem TableBits.seReg (x y : Reg) : TableBits.Statement (.seReg x y) :=
  ⟨covers_of_eq _ _ (encXyf_and_mask _ x y _ (isFamily_of _ rfl)), by simp [Instr.tableRow, opcodeTable]⟩
theorem TableBits.ldByte (x : Reg) (kk : Byte) : TableBits.Statement (.ldByte x kk) :=
  ⟨covers_of_eq _ _ (encXkk_and_mask _ x kk (isFamily_of _ rfl)), by simp [Instr.tableRow, opcodeTable]⟩
theorem TableBits.addByte (x : Reg) (kk : Byte) : TableBits.Statement (.addByte x kk) :=
  ⟨covers_of_eq _ _ (encXkk_and_mask _ x kk (isFamily_of _ rfl)), by simp [Instr.tableRow, opcodeTable]⟩
theorem TableBits.ldReg (x y : Reg) : TableBits.Statement (.ldReg x y) :=
  ⟨covers_of_eq _ _ (encXyf_and_mask _ x y _ (isFamily_of _ rfl)), by simp [Instr.tableRow, opcodeTable]⟩
theorem TableBits.orReg (x y : Reg) : TableBits.Statement (.orReg x y) :=
  ⟨covers_of_eq _ _ (encXyf_and_mask _ x y _ (isFamily_of _ rfl)), by simp [Instr.tableRow, opcodeTable]⟩
theorem TableBits.andReg (x y : Reg) : TableBits.Statement (.andReg x y) :=
  ⟨covers_of_eq _ _ (encXyf_and_mask _ x y _ (isFamily_of _ rfl)), by simp [Instr.tableRow, opcodeTable]⟩
theorem TableBits.xorReg (x y : Reg) : TableBits.Statement (.xorReg x y) :=
  ⟨covers_of_eq _ _ (encXyf_and_mask _ x y _ (isFamily_of _ rfl)), by simp [Instr.tableRow, opcodeTable]⟩
theorem TableBits.addReg (x y : Reg) : TableBits.Statement (.addReg x y) :=
  ⟨covers_of_eq _ _ (encXyf_and_mask _ x y _ (isFamily_of _ rfl)), by simp [Instr.tableRow, opcodeTable]⟩
theorem TableBits.subReg (x y : Reg) : TableBits.Statement (.subReg x y) :=
  ⟨covers_of_eq _ _ (encXyf_and_mask _ x y _ (isFamily_of _ rfl)), by simp [Instr.tableRow, opcodeTable]⟩
theorem TableBits.shr (x y : Reg) : TableBits.Statement (.shr x y) :=
  ⟨covers_of_eq _ _ (encXyf_and_mask _ x y _ (isFamily_of _ rfl)), by simp [Instr.tableRow, opcodeTable]⟩
theorem TableBits.subnReg (x y : Reg) : TableBits.Statement (.subnReg x y) :=
  ⟨covers_of_eq _ _ (encXyf_and_mask _ x y _ (isFamily_of _ rfl)), by simp [Instr.tableRow, opcodeTable]⟩
theorem TableBits.shl (x y : Reg) : TableBits.Statement (.shl x y) :=
  ⟨covers_of_eq _ _ (encXyf_and_mask _ x y _ (isFamily_of _ rfl)), by simp [Instr.tableRow, opcodeTable]⟩
theorem TableBits.sneReg (x y : Reg) : TableBits.Statement (.sneReg x y) :=
  ⟨covers_of_eq _ _ (encXyf_and_mask _ x y _ (isFamily_of _ rfl)), by simp [Instr.tableRow, opcodeTable]⟩
theorem TableBits.ldI (nnn : Addr) : TableBits.Statement (.ldI nnn) :=
  ⟨covers_of_eq _ _ (encNnn_and_mask _ nnn (isFamily_of _ rfl)), by simp [Instr.tableRow, opcodeTable]⟩
theorem TableBits.jpV0 (nnn : Addr) : TableBits.Statement (.jpV0 nnn) :=
  ⟨covers_of_eq _ _ (encNnn_and_mask _ nnn (isFamily_of _ rfl)), by simp [Instr.tableRow, opcodeTable]⟩
theorem TableBits.rnd (x : Reg) (kk : Byte) : TableBits.Statement (.rnd x kk) :=
  ⟨covers_of_eq _ _ (encXkk_and_mask _ x kk (isFamily_of _ rfl)), by simp [Instr.tableRow, opcodeTable]⟩
theorem TableBits.drw (x y : Reg) (n : Nibble) : TableBits.Statement (.drw x y n) :=
  ⟨covers_of_eq _ _ (encXyn_and_mask _ x y n (isFamily_of _ rfl)), by simp [Instr.tableRow, opcodeTable]⟩
theorem TableBits.skp (x : Reg) : TableBits.Statement (.skp x) :=
  ⟨covers_of_eq _ _ (encXf_and_mask _ x _ (isFamily_of _ rfl)), by simp [Instr.tableRow, opcodeTable]⟩
theorem TableBits.sknp (x : Reg) : TableBits.Statement (.sknp x) :=
  ⟨covers_of_eq _ _ (encXf_and_mask _ x _ (isFamily_of _ rfl)), by simp [Instr.tableRow, opcodeTable]⟩
theorem TableBits.ldVxDt (x : Reg) : TableBits.Statement (.ldVxDt x) :=
  ⟨covers_of_eq _ _ (encXf_and_mask _ x _ (isFamily_of _ rfl)), by simp [Instr.tableRow, opcodeTable]⟩
theorem TableBits.ldVxK (x : Reg) : TableBits.Statement (.ldVxK x) :=
  ⟨covers_of_eq _ _ (encXf_and_mask _ x _ (isFamily_of _ rfl)), by simp [Instr.tableRow, opcodeTable]⟩
theorem TableBits.ldDtVx (x : Reg) : TableBits.Statement (.ldDtVx x) :=
  ⟨covers_of_eq _ _ (encXf_and_mask _ x _ (isFamily_of _ rfl)), by simp [Instr.tableRow, opcodeTable]⟩
theorem TableBits.ldStVx (x : Reg) : TableBits.Statement (.ldStVx x) :=
  ⟨covers_of_eq _ _ (encXf_and_mask _ x _ (isFamily_of _ rfl)), by simp [Instr.tableRow, opcodeTable]⟩
theorem TableBits.addI (x : Reg) : TableBits.Statement (.addI x) :=
  ⟨covers_of_eq _ _ (encXf_and_mask _ x _ (isFamily_of _ rfl)), by simp [Instr.tableRow, opcodeTable]⟩
theorem TableBits.ldF (x : Reg) : TableBits.Statement (.ldF x) :=
  ⟨covers_of_eq _ _ (encXf_and_mask _ x _ (isFamily_of _ rfl)), by simp [Instr.tableRow, opcodeTable]⟩
theorem TableBits.ldB (x : Reg) : TableBits.Statement (.ldB x) :=
  ⟨covers_of_eq _ _ (encXf_and_mask _ x _ (isFamily_of _ rfl)), by simp [Instr.tableRow, opcodeTable]⟩
theorem TableBits.ldMemVx (x : Reg) : TableBits.Statement (.ldMemVx x) :=
  ⟨covers_of_eq _ _ (encXf_and_mask _ x _ (isFamily_of _ rfl)), by simp [Instr.tableRow, opcodeTable]⟩
theorem TableBits.ldVxMem (x : Reg) : TableBits.Statement (.ldVxMem x) :=
  ⟨covers_of_eq _ _ (encXf_and_mask _ x _ (isFamily_of _ rfl)), by simp [Instr.tableRow, opcodeTable]⟩

end Sys2Proof.Laws
end

