-- ==== Sys2Proof/Tests/Slice0.lean ====
section
/-! SUPPORT. The model's own tests. Decode words are written out from the patterns of spec/30_encoding.md R64; expected
results are those of the vectors of spec/95_test_vectors.md, named S<n> and V<n> in each test's comment. After them, one
state (or more, one per clause) that meets the hypotheses of each statement that has some. -/

namespace Sys2Proof.Tests
open Sys2Proof Sys2Proof.Machine

/-! ## WellFormed refuses an operand that does not fit its field -/

theorem test_wf_reg_16_refused : (Field.reg 16).fits = false := by decide
theorem test_wf_addr_4096_refused : (Field.addr 4096).fits = false := by decide
theorem test_wf_byte_256_refused : (Field.byte 256).fits = false := by decide
theorem test_wf_nibble_16_refused : (Field.nibble 16).fits = false := by decide
theorem test_wf_fields_refused : [Field.reg 3, Field.byte 256].all Field.fits = false := by decide
theorem test_wf_drw_accepted : (Instr.drw 15 15 0xF).wellFormed = true := by decide

/-! ## Decoding, one word per instruction, bits written out -/

theorem test_decode_cls : decode 0b0000000011100000 = .instr .cls := by decide
theorem test_decode_ret : decode 0b0000000011101110 = .instr .ret := by decide
theorem test_decode_jp : decode 0b0001101010111100 = .instr (.jp 0xABC) := by decide
theorem test_decode_call : decode 0b0010001000010000 = .instr (.call 0x210) := by decide
theorem test_decode_seByte : decode 0b0011010100000011 = .instr (.seByte 5 0x03) := by decide
theorem test_decode_sneByte : decode 0b0100001001000001 = .instr (.sneByte 2 0x41) := by decide
theorem test_decode_seReg : decode 0b0101000100100000 = .instr (.seReg 1 2) := by decide
theorem test_decode_ldByte : decode 0b0110101001111011 = .instr (.ldByte 10 0x7B) := by decide
theorem test_decode_addByte : decode 0b0111000011111111 = .instr (.addByte 0 0xFF) := by decide
theorem test_decode_ldReg : decode 0b1000000100100000 = .instr (.ldReg 1 2) := by decide
theorem test_decode_orReg : decode 0b1000000100100001 = .instr (.orReg 1 2) := by decide
theorem test_decode_andReg : decode 0b1000000100100010 = .instr (.andReg 1 2) := by decide
theorem test_decode_xorReg : decode 0b1000000100100011 = .instr (.xorReg 1 2) := by decide
theorem test_decode_addReg : decode 0b1000111100010100 = .instr (.addReg 15 1) := by decide
theorem test_decode_subReg : decode 0b1000000100100101 = .instr (.subReg 1 2) := by decide
theorem test_decode_shr : decode 0b1000001101000110 = .instr (.shr 3 4) := by decide
theorem test_decode_subnReg : decode 0b1000000100100111 = .instr (.subnReg 1 2) := by decide
theorem test_decode_shl : decode 0b1000001101001110 = .instr (.shl 3 4) := by decide
theorem test_decode_sneReg : decode 0b1001000100100000 = .instr (.sneReg 1 2) := by decide
theorem test_decode_ldI : decode 0b1010101010111011 = .instr (.ldI 0xABB) := by decide
theorem test_decode_jpV0 : decode 0b1011001100000000 = .instr (.jpV0 0x300) := by decide
theorem test_decode_rnd : decode 0b1100001100001111 = .instr (.rnd 3 0x0F) := by decide
theorem test_decode_drw : decode 0b1101000000011000 = .instr (.drw 0 1 8) := by decide
theorem test_decode_skp : decode 0b1110000110011110 = .instr (.skp 1) := by decide
theorem test_decode_sknp : decode 0b1110000110100001 = .instr (.sknp 1) := by decide
theorem test_decode_ldVxDt : decode 0b1111001000000111 = .instr (.ldVxDt 2) := by decide
theorem test_decode_ldVxK : decode 0b1111001100001010 = .instr (.ldVxK 3) := by decide
theorem test_decode_ldDtVx : decode 0b1111000100010101 = .instr (.ldDtVx 1) := by decide
theorem test_decode_ldStVx : decode 0b1111000000011000 = .instr (.ldStVx 0) := by decide
theorem test_decode_addI : decode 0b1111001000011110 = .instr (.addI 2) := by decide
theorem test_decode_ldF : decode 0b1111001000101001 = .instr (.ldF 2) := by decide
theorem test_decode_ldB : decode 0b1111101000110011 = .instr (.ldB 10) := by decide
theorem test_decode_ldMemVx : decode 0b1111001001010101 = .instr (.ldMemVx 2) := by decide
theorem test_decode_ldVxMem : decode 0b1111001001100101 = .instr (.ldVxMem 2) := by decide

/-- V6 to V16: words next to a pattern are UNKNOWN. -/
theorem test_decode_unknown :
    [0x0000, 0x0123, 0x01E0, 0x00E1, 0x5121, 0x912F, 0x8128, 0x812F, 0xE1FF, 0xF1FF, 0xF10B].all
      (fun w => decode (BitVec.ofNat 16 w) == .unknown (BitVec.ofNat 16 w)) = true := by decide

/-- R60: the stream decoder takes two bytes, rejects a lone byte and an UNKNOWN word by name. -/
theorem test_decodeBytes_takes_two : (decodeBytes [0x12, 0x34, 0x56]).toOption = some (.jp 0x234, [0x56]) := by decide
theorem test_decodeBytes_lone_byte : (decodeBytes [0x12]).toOption = none := by decide
theorem test_decodeTableWord : decodeTableWord 16 0xD018 = some (.drw 0 1 8) := by decide

/-! ## One step on a small state -/

/-- The reset state with PC = p and the word at p, changed by f first. -/
def placed (p : Word) (op : Nat) (f : State → State) : State := ({ f State.reset with pc := p }).withFetchWord 16 op

/-- The step answers a next state with the property. -/
def stepsTo (s : State) (P : State → Bool) : Bool :=
  match step s with
  | .next t => P t
  | .fault _ => false
  | .refused _ => false

/-- Memory with some bytes from an address. -/
def withBytes (a : Nat) (bs : List Byte) (s : State) : State := s.setMem (Memory.writeBytes s.mem a bs)

/-- V2: PC wraps past 0xFFE. -/
theorem test_fetch_wraps_pc : stepsTo (placed 0xFFE 0x6011 id) (fun t => t.getV 0 == 0x11 && t.pc == 0x000) = true := by
  decide
/-- V3: the second byte of a word at 0xFFF is at 0x000. -/
theorem test_fetch_wraps_address :
    stepsTo (placed 0xFFF 0x6122 id) (fun t => t.getV 1 == 0x22 && t.pc == 0x001) = true := by decide
/-- V6. -/
theorem test_unknown_skipped : stepsTo State.reset (fun t => t == { State.reset with pc := 0x202 }) = true := by decide
/-- V23: a halted step changes nothing. -/
theorem test_halted_step :
    stepsTo (placed 0x300 0x00EE id |>.raiseFatal .stackUnderflow) (fun t => t.pc == 0x300 && t.mode == .halted) = true := by
  decide

/-- V84. -/
theorem test_cls : stepsTo (placed 0x200 0x00E0 (fun s => s.setFb (s.fb.flip 3 7)))
    (fun t => t.fb.pixel 3 7 == false && t.pc == 0x202) = true := by decide
/-- V20. -/
theorem test_ret : stepsTo (placed 0x210 0x00EE (fun s => { s with sp := 1, stack := s.stack.set 0 0x206 }))
    (fun t => t.pc == 0x206 && t.sp == 0) = true := by decide
/-- S8. -/
theorem test_ret_empty : stepsTo (placed 0x200 0x00EE id)
    (fun t => t.pc == 0x200 && t.mode == .halted && t.haltReason == .stackUnderflow) = true := by decide
/-- V1. -/
theorem test_jp : stepsTo (placed 0x200 0x1234 id) (fun t => t.pc == 0x234) = true := by decide
/-- V19. -/
theorem test_call : stepsTo (placed 0x204 0x2210 id)
    (fun t => t.pc == 0x210 && t.sp == 1 && t.stack[0] == 0x206) = true := by decide
/-- V21. -/
theorem test_call_full : stepsTo (placed 0x300 0x2400 (fun s => { s with sp := 16 }))
    (fun t => t.pc == 0x300 && t.sp == 16 && t.mode == .halted && t.haltReason == .stackOverflow) = true := by decide
/-- S4. -/
theorem test_seByte : stepsTo (placed 10 0x3503 (fun s => s.setV 5 3)) (fun t => t.pc == 14) = true := by decide
/-- V26: the skip wraps. -/
theorem test_seByte_wraps : stepsTo (placed 0xFFE 0x3000 id) (fun t => t.pc == 0x002) = true := by decide
/-- V25. -/
theorem test_sneByte : stepsTo (placed 0x300 0x4241 (fun s => s.setV 2 0x41)) (fun t => t.pc == 0x302) = true := by decide
/-- V28. -/
theorem test_seReg : stepsTo (placed 0x300 0x5330 (fun s => s.setV 3 9)) (fun t => t.pc == 0x304) = true := by decide
/-- V27. -/
theorem test_sneReg : stepsTo (placed 0x300 0x9120 (fun s => (s.setV 1 7).setV 2 7)) (fun t => t.pc == 0x302) = true := by
  decide
/-- V31. -/
theorem test_jpV0_wraps : stepsTo (placed 0x200 0xBFFF (fun s => s.setV 0 0xFF)) (fun t => t.pc == 0x0FE) = true := by decide
/-- V32: V0, not V[x]. -/
theorem test_jpV0_reads_v0 : stepsTo (placed 0x200 0xB200 (fun s => s.setV 2 0x50)) (fun t => t.pc == 0x200) = true := by
  decide
/-- V33. -/
theorem test_ldByte : stepsTo (placed 0x200 0x6A7B id) (fun t => t.getV 10 == 0x7B) = true := by decide
/-- V34: no flag. -/
theorem test_addByte : stepsTo (placed 0x200 0x70FF (fun s => s.setV 0 5)) (fun t => t.getV 0 == 4 && t.getV 15 == 0) = true := by
  decide
/-- V36. -/
theorem test_ldReg : stepsTo (placed 0x200 0x8120 (fun s => s.setV 2 0x42)) (fun t => t.getV 1 == 0x42) = true := by decide
/-- V38. -/
theorem test_orReg : stepsTo (placed 0x200 0x8121 (fun s => ((s.setV 1 0xF0).setV 2 0x0F).setV 15 0x55))
    (fun t => t.getV 1 == 0xFF && t.getV 15 == 0x55) = true := by decide
/-- V39. -/
theorem test_andReg : stepsTo (placed 0x200 0x8122 (fun s => ((s.setV 1 0xF0).setV 2 0x3C).setV 15 0x55))
    (fun t => t.getV 1 == 0x30 && t.getV 15 == 0x55) = true := by decide
/-- V40. -/
theorem test_xorReg : stepsTo (placed 0x200 0x8123 (fun s => ((s.setV 1 0xF0).setV 2 0x3C).setV 15 0x55))
    (fun t => t.getV 1 == 0xCC && t.getV 15 == 0x55) = true := by decide
/-- V45: y = 0xF adds the old VF. -/
theorem test_addReg_reads_vf : stepsTo (placed 0x200 0x81F4 (fun s => (s.setV 1 1).setV 15 0xFF))
    (fun t => t.getV 1 == 0 && t.getV 15 == 1) = true := by decide
/-- V44: at x = 0xF the sum survives. -/
theorem test_addReg_into_vf : stepsTo (placed 0x200 0x8F14 (fun s => (s.setV 1 1).setV 15 0xFF))
    (fun t => t.getV 15 == 0) = true := by decide
/-- V46: equal operands do not borrow. -/
theorem test_subReg_equal : stepsTo (placed 0x200 0x8125 (fun s => (s.setV 1 7).setV 2 7))
    (fun t => t.getV 1 == 0 && t.getV 15 == 1) = true := by decide
/-- S6. -/
theorem test_subReg_borrows : stepsTo (placed 0x200 0x8125 (fun s => (s.setV 1 5).setV 2 6))
    (fun t => t.getV 1 == 0xFF && t.getV 15 == 0) = true := by decide
/-- V49: y is not read. -/
theorem test_shr : stepsTo (placed 0x200 0x8346 (fun s => (s.setV 3 5).setV 4 0xFF))
    (fun t => t.getV 3 == 2 && t.getV 15 == 1) = true := by decide
/-- V52: at x = 0xF the result survives. -/
theorem test_shr_vf : stepsTo (placed 0x200 0x8F06 (fun s => s.setV 15 2)) (fun t => t.getV 15 == 1) = true := by decide
/-- V53. -/
theorem test_subnReg : stepsTo (placed 0x200 0x8127 (fun s => (s.setV 1 6).setV 2 5))
    (fun t => t.getV 1 == 0xFF && t.getV 15 == 0) = true := by decide
/-- V59. -/
theorem test_subnReg_into_vf : stepsTo (placed 0x200 0x8F27 (fun s => (s.setV 15 1).setV 2 3))
    (fun t => t.getV 15 == 2) = true := by decide
/-- V56: the flag comes from V[x]. -/
theorem test_shl : stepsTo (placed 0x200 0x834E (fun s => s.setV 3 0x81))
    (fun t => t.getV 3 == 2 && t.getV 15 == 1) = true := by decide
/-- V58. -/
theorem test_shl_vf : stepsTo (placed 0x200 0x8F0E (fun s => s.setV 15 0x80)) (fun t => t.getV 15 == 0) = true := by decide
/-- V60: with rnd = A7 supplied by the host. -/
theorem test_rnd : stepWith 0xA7 (placed 0x200 0xC30F id) = .next (rndEffect 0xA7 3 0x0F (placed 0x200 0xC30F id)) := rfl
theorem test_rnd_masks : (rndEffect 0xA7 3 0x0F State.reset).getV 3 = 0x07 := by decide
/-- S3. -/
theorem test_ldI : stepsTo (placed 0x200 0xAABB id) (fun t => t.i == 0xABB && t.pc == 0x202) = true := by decide
/-- V67: wraps, no flag. -/
theorem test_addI_wraps : stepsTo (placed 0x200 0xF21E (fun s => (s.setI 0xFFF).setV 2 1))
    (fun t => t.i == 0 && t.getV 15 == 0) = true := by decide
/-- V71: no mask. -/
theorem test_ldF_no_mask : stepsTo (placed 0x200 0xF229 (fun s => s.setV 2 0xFF)) (fun t => t.i == 0x54B) = true := by decide
/-- V73. -/
theorem test_ldB : stepsTo (placed 0x200 0xF133 (fun s => (s.setI 0x300).setV 1 0xFF))
    (fun t => [0x300, 0x301, 0x302].map (Memory.read t.mem) == [2, 5, 5] && t.i == 0x300) = true := by decide
/-- V76: wraps at the top of memory. -/
theorem test_ldB_wraps : stepsTo (placed 0x200 0xF133 (fun s => (s.setI 0xFFE).setV 1 0x7B))
    (fun t => [0xFFE, 0xFFF, 0x000].map (Memory.read t.mem) == [1, 2, 3]) = true := by decide
/-- V77. -/
theorem test_ldMemVx : stepsTo (placed 0x200 0xF255 (fun s => (((s.setI 0x400).setV 0 1).setV 1 2).setV 2 3 |>.setV 3 9))
    (fun t => [0x400, 0x401, 0x402, 0x403].map (Memory.read t.mem) == [1, 2, 3, 0] && t.i == 0x400) = true := by decide
/-- V82 and V80: from the font, and only V0..Vx. -/
theorem test_ldVxMem : stepsTo (placed 0x200 0xF165 (fun s => (s.setI 0x050).setV 2 7))
    (fun t => t.getV 0 == 0xF0 && t.getV 1 == 0x90 && t.getV 2 == 7) = true := by decide
/-- V81: wraps. -/
theorem test_ldVxMem_wraps :
    stepsTo (placed 0x200 0xF165 (fun s => withBytes 0xFFF [0x11, 0x22] (s.setI 0xFFF)))
      (fun t => t.getV 0 == 0x11 && t.getV 1 == 0x22) = true := by decide
/-- V87: one pixel from 1 to 0 is enough. -/
theorem test_drw_collision :
    stepsTo (placed 0x200 0xD011 (fun s => withBytes 0x300 [0xC0] ((s.setI 0x300).setFb (s.fb.flip 0 0))))
      (fun t => t.fb.pixel 0 0 == false && t.fb.pixel 0 1 == true && t.getV 15 == 1) = true := by decide
/-- V94: wraps in both directions. -/
theorem test_drw_wraps :
    stepsTo (placed 0x200 0xD012 (fun s => withBytes 0x300 [0xFF, 0xFF] (((s.setI 0x300).setV 0 60).setV 1 31)))
      (fun t => t.fb.pixel 31 60 && t.fb.pixel 31 3 && t.fb.pixel 0 63 && t.fb.pixel 0 0 && !t.fb.pixel 0 4 &&
        !t.fb.pixel 1 60 && t.getV 15 == 0) = true := by decide
/-- V97. -/
theorem test_skp : stepsTo (placed 0x300 0xE19E (fun s => (s.setV 1 5).setKeys (s.keys.set 5 true)))
    (fun t => t.pc == 0x304) = true := by decide
/-- V101: index 16 is never down. -/
theorem test_skp_no_such_key : stepsTo (placed 0x300 0xE19E (fun s => (s.setV 1 16).setKeys (Vector.replicate _ true)))
    (fun t => t.pc == 0x302) = true := by decide
/-- V99. -/
theorem test_sknp : stepsTo (placed 0x300 0xE1A1 (fun s => s.setV 1 5)) (fun t => t.pc == 0x304) = true := by decide
/-- V103. -/
theorem test_ldVxDt : stepsTo (placed 0x200 0xF207 (fun s => s.setDt 6)) (fun t => t.getV 2 == 6 && t.dt == 6) = true := by
  decide
/-- V107: the entry step ignores a key that is down. -/
theorem test_ldVxK_entry : stepsTo (placed 0x200 0xF30A (fun s => s.setKeys (s.keys.set 4 true)))
    (fun t => t.mode == .awaitingKey && t.pc == 0x200 && t.waitX == 3 && t.getV 3 == 0) = true := by decide
/-- V110: the lowest key wins. -/
theorem test_key_wait_lowest :
    stepsTo ((placed 0x200 0xF30A (fun s => s.setKeys ((s.keys.set 9 true).set 7 true))).beginWait 3)
      (fun t => t.mode == .running && t.pc == 0x202 && t.getV 3 == 7) = true := by decide
/-- V104. -/
theorem test_ldDtVx : stepsTo (placed 0x200 0xF115 (fun s => s.setV 1 7)) (fun t => t.dt == 7) = true := by decide
/-- V105. -/
theorem test_ldStVx : stepsTo (placed 0x200 0xF018 (fun s => s.setV 0 3)) (fun t => t.st == 3 && t.isSoundActive) = true := by
  decide

/-! ## Host commands -/

/-- V113, V114. -/
theorem test_tick : (((State.reset.setDt 2).setSt 0).tick60Hz).dt = 1 ∧ (((State.reset.setDt 2).setSt 0).tick60Hz).st = 0 := by
  decide
/-- V116: HALTED still ticks. -/
theorem test_tick_halted : ((State.reset.setDt 5).raiseFatal .stackOverflow).tick60Hz.dt = 4 := by decide
/-- S2. -/
theorem test_loadRom : [0x200, 0x201, 0x202, 0x203].map (Memory.read (State.reset.loadRom [1, 2, 3]).2.mem) = [1, 2, 3, 0] := by
  decide
/-- R36. -/
theorem test_step_before_initialize :
    Block.command Config.font (.step 0) .uninitialised = .refused .notInitialised := rfl
/-- V118: glyphs 0 and F of the default font, and the byte after it. -/
theorem test_font_bytes :
    [0x050, 0x051, 0x09B, 0x09F, 0x0A0].map (Memory.read State.reset.mem) = [0xF0, 0x90, 0xF0, 0x80, 0x00] := by decide
/-- R46: `initialize` with the default font lists nothing, which is State.reset's memory. -/
theorem test_default_font_lists_nothing : Memory.resetWith Config.font = [] := by decide

/-! ## Witnesses: the hypotheses of each statement can be met -/

/-- A legal state that is not the reset state. -/
def legalState : State := placed 0x300 0xF30A (fun s => s.setKeys (s.keys.set 4 true))

theorem witness_legal : legalState.Legal :=
  ⟨by decide, by decide, fun j h => absurd h (Nat.not_lt_zero _), by decide, by decide⟩

theorem witness_EncodeAfterDecode : decode 0x8124 = .instr (.addReg 1 2) := by decide

theorem witness_TableRowsDecideDecoding :
    (∃ r ∈ opcodeTable, r.covers 0xF155 = true) ∧ (∀ r ∈ opcodeTable, r.covers 0x5121 = false) :=
  ⟨⟨⟨0xF0FF, 0xF055⟩, by decide, by decide⟩, by decide⟩

theorem witness_RunningStepRunsDecodedInstruction :
    legalState.mode = .running ∧
    decode ((Memory.read legalState.mem legalState.pc.toNat).setWidth 16 <<< 8 |||
      (Memory.read legalState.mem ((legalState.pc.toNat + 1) % 4096)).setWidth 16) = .instr (.ldVxK 3) := by decide

theorem witness_UnknownWordIsSkipped :
    State.reset.mode = .running ∧ decode State.reset.fetchWord = .unknown 0x0000 := by decide

theorem witness_HaltIsSticky :
    (State.reset.raiseFatal .stackOverflow).mode = .halted ∧ Command.tick60Hz ≠ Command.init ∧
    ∃ b r, (State.reset.raiseFatal .stackOverflow).command Config.font .tick60Hz = .next (b, r) :=
  ⟨rfl, by decide, _, _, rfl⟩

theorem witness_KeyWaitStepTakesLowestKey :
    (legalState.beginWait 3).mode = .awaitingKey ∧
    (∃ k : Fin 16, (legalState.beginWait 3).keys[k.val] = true ∧
      ∀ j : Fin 16, j < k → (legalState.beginWait 3).keys[j.val] = false) ∧
    (∀ k : Fin 16, (State.reset.beginWait 0).keys[k.val] = false) := by decide

theorem witness_StepKeepsLegal : legalState.Legal ∧ ∃ t, step legalState = .next t := ⟨witness_legal, _, rfl⟩

theorem witness_EveryCommandRunKeepsLegal :
    (Block.ready legalState).Legal ∧
    ∃ b rs, Block.run Config.font [.tick60Hz, .setKeys (Vector.replicate _ true), .getDisplay] (.ready legalState)
      = .next (b, rs) := ⟨witness_legal, _, _, rfl⟩

theorem witness_RandomByteReadOnlyByRnd :
    ((placed 0x200 0xC30F id).mode = .running ∧ decode (placed 0x200 0xC30F id).fetchWord = .instr (.rnd 3 0x0F)) ∧
    ¬ (State.reset.mode = .running ∧ ∃ x kk, decode State.reset.fetchWord = .instr (.rnd x kk)) := by
  refine ⟨by decide, fun h => ?_⟩
  obtain ⟨-, x, kk, h⟩ := h
  rw [show decode State.reset.fetchWord = .unknown 0x0000 by decide] at h
  cases h

/-- Each of the two steps, and each clause on MODE. -/
theorem witness_StepResultTable :
    legalState.Legal ∧ step legalState = .next (legalState.beginWait 3) ∧
    stepWith 0xA7 legalState = .next (legalState.beginWait 3) ∧ legalState.mode = .running ∧
    (legalState.beginWait 3).Legal ∧ (legalState.beginWait 3).mode ≠ .running ∧
    ∃ t, stepWith 0xA7 (legalState.beginWait 3) = .next t :=
  ⟨witness_legal, by rw [step_running legalState (.ldVxK 3) (by decide) (by decide)]; rfl, rfl, by decide,
    ⟨by decide, by decide, fun j h => absurd h (Nat.not_lt_zero _), by decide, by decide⟩, by decide, _, rfl⟩

/-- A changed MODE, once for each of the three clauses (the last with each fatal cause). -/
theorem witness_OnlyNamedEventsChangeMode :
    stepsTo legalState (fun t => t.mode == .awaitingKey) = true ∧
    stepsTo (legalState.beginWait 3) (fun t => t.mode == .running) = true ∧
    stepsTo (placed 0x200 0x00EE id) (fun t => t.mode == .halted) = true ∧
    stepsTo (placed 0x200 0x2400 (fun s => { s with sp := 16 })) (fun t => t.mode == .halted) = true := by decide

theorem witness_FatalCausesAreExactlyTwo :
    State.reset.mode = .running ∧ State.reset.sp.val = 0 ∧ (∃ t, exec .ret State.reset = .next t) ∧
    ({ State.reset with sp := 16 } : State).sp.val = 16 ∧
    (∃ t, exec (.call 0x400) { State.reset with sp := 16 } = .next t) :=
  ⟨rfl, rfl, ⟨_, rfl⟩, rfl, ⟨_, rfl⟩⟩

theorem witness_OnlyDestinationRegistersChange :
    (∃ t, exec (.addReg 1 2) legalState = .next t) ∧ writesV (.addReg 1 2) 2 = false ∧
    writesV (.ldVxMem 3) 4 = false ∧ writesV (.drw 1 2 3) 1 = false := ⟨⟨_, rfl⟩, by decide⟩

theorem witness_OnlyStoredBytesChange :
    (∃ t, exec (.ldB 1) legalState = .next t) ∧
    (∀ k, k < storedBytes (.ldB 1) → 3 % 4096 ≠ legalState.indexed k % 4096) ∧
    decode State.reset.fetchWord = .unknown State.reset.fetchWord ∧ (∃ t, step State.reset = .next t) :=
  ⟨⟨_, rfl⟩, by decide, by decide, _, rfl⟩

theorem witness_EachElementChangesOnlyByItsWriters : ∃ t, exec (.ldDtVx 1) legalState = .next t := ⟨_, rfl⟩

theorem witness_StraightLineInstructionsAdvancePc :
    (∃ t, exec (.ldDtVx 1) legalState = .next t) ∧ touchesPc (.ldDtVx 1) = false := ⟨⟨_, rfl⟩, rfl⟩

theorem witness_ReturnPopsOrHalts :
    (∃ (s : State) (j : Fin 16), s.sp = j.succ ∧ j = 15) ∧ (∃ (s : State) (j : Fin 16), s.sp = j.succ ∧ j = 0) ∧
    State.reset.sp = 0 :=
  ⟨⟨{ State.reset with sp := 16 }, 15, rfl, rfl⟩, ⟨{ State.reset with sp := 1 }, 0, rfl, rfl⟩, rfl⟩

theorem witness_CallPushesOrHalts :
    (∃ (s : State) (j : Fin 16), s.sp = j.castSucc ∧ j = 15) ∧ (∃ s : State, s.sp.val = 16) :=
  ⟨⟨{ State.reset with sp := 15 }, 15, rfl, rfl⟩, ⟨{ State.reset with sp := 16 }, rfl⟩⟩

theorem witness_ReturnUndoesCall :
    ({ State.reset with sp := 15 } : State).sp.val < 16 ∧
    ∃ t, exec (.call 0x400) { State.reset with sp := 15 } = .next t := ⟨by decide, _, rfl⟩

theorem witness_SkipsOnRegisters :
    (0x5121 : Word).toNat / 4096 = 5 ∧ (0x5121 : Word).toNat % 16 ≠ 0 ∧
    (0x912F : Word).toNat / 4096 = 9 ∧ (0x912F : Word).toNat % 16 ≠ 0 := by decide

theorem witness_BcdDigitsAreStored : Memory.wf legalState.mem = true := by decide
theorem witness_RegistersAreStored : Memory.wf legalState.mem = true := by decide

/-- The registers may have changed since the store. -/
theorem witness_LoadUndoesStore :
    Memory.wf legalState.mem = true ∧ ∃ t, exec (.ldMemVx 2) legalState = .next t ∧
      (t.setV 1 0x55).mem = t.mem ∧ (t.setV 1 0x55).i = t.i ∧ (t.setV 1 0x55).getV 1 ≠ legalState.getV 1 :=
  ⟨by decide, _, rfl, rfl, rfl, by decide⟩

/-- V83. -/
theorem witness_StoredCodeIsFetchedNext :
    Memory.wf (legalState.setI 0x302).mem = true ∧ 1 ≤ (1 : Reg).val ∧
    (legalState.setI 0x302).i.toNat % 4096 = ((legalState.setI 0x302).pc.toNat + 2) % 4096 ∧
    ∃ t, exec (.ldMemVx 1) (legalState.setI 0x302) = .next t := ⟨by decide, by decide, by decide, _, rfl⟩

theorem witness_CanonicalMemoryIsUnique :
    Memory.wf [(0x300, 1)] = true ∧ Memory.wf (Memory.write [] 0x300 1) = true ∧
    ∀ a, a < 4096 → Memory.read [(0x300, 1)] a = Memory.read (Memory.write [] 0x300 1) a :=
  ⟨by decide, by decide, fun _ _ => rfl⟩

theorem witness_DrawingTwiceRestoresDisplay :
    (0 : Reg) ≠ 15 ∧ (1 : Reg) ≠ 15 ∧
    (∃ t u, exec (.drw 0 1 5) legalState = .next t ∧ exec (.drw 0 1 5) t = .next u) ∧
    (∀ r c, State.reset.fb.pixel r c = false) :=
  ⟨by decide, by decide, ⟨_, _, rfl, rfl⟩, Display.pixel_clear⟩

theorem witness_SkipsOnKeys :
    (∃ k : Fin 16, ((State.reset.setV 1 0xF).getV 1).toNat = k.val) ∧ ((State.reset.setV 1 0x10).getV 1).toNat > 0xF := by
  decide

theorem witness_WaitWithoutKeyHangs :
    (State.reset.beginWait 3).Hung ∧ ∀ c ∈ [Command.step 7, .tick60Hz, .getDisplay], c.givesNoInput = true :=
  ⟨⟨rfl, by decide⟩, by decide⟩

theorem witness_TickCountsTimersDown :
    (State.reset.beginWait 3).mode = .awaitingKey ∧ (State.reset.raiseFatal .stackOverflow).mode ≠ .awaitingKey := by decide

theorem witness_KeypadAndReadCommands :
    Command.getDisplay.readsOnly = true ∧
    ∃ b r, State.reset.command Config.font .getDisplay = .next (b, r) := ⟨rfl, _, _, rfl⟩

/-- The longest ROM that fits, and one byte more (V120, V121). -/
theorem witness_LoadRomCopiesOrRejects :
    Memory.wf State.reset.mem = true ∧ (List.replicate 3585 (0xAB : Byte)).length > 3584 ∧
    (List.replicate 3584 (0xAB : Byte)).length ≤ 3584 :=
  ⟨rfl, by rw [List.length_replicate]; decide, by rw [List.length_replicate]⟩

theorem witness_NothingBeforeInitialize : Command.step 0 ≠ Command.init := by decide

theorem witness_PlacedWordRunsNext : Memory.wf (State.reset.raiseFatal .stackOverflow).mem = true := rfl

end Sys2Proof.Tests
end

section
/-! PROOF. What one instruction, one step and one command can do to the elements that R37 bounds (spec/10_state.md R37)
and to MODE (R30); from it, the invariant of every command run and the table of step results. -/

namespace Sys2Proof.Machine

/-! ## Instructions that leave MODE and the stack alone -/

/-- From `s` to `t` neither MODE nor the call stack changes, PC is reduced (R25), and I and memory stay as R37 has them:
all that the instructions other than 00EE, 2nnn and Fx0A do to these elements. -/
structure State.KeepsControl (s t : State) : Prop where
  mode : t.mode = s.mode
  haltReason : t.haltReason = s.haltReason
  stack : t.stack = s.stack
  sp : t.sp = s.sp
  pc_le : t.pc.toNat ≤ 0xFFF
  i_le : s.i.toNat ≤ 0xFFF → t.i.toNat ≤ 0xFFF
  mem_wf : Memory.wf s.mem = true → Memory.wf t.mem = true

theorem State.keepsControl_advance (s : State) : s.KeepsControl s.advance :=
  ⟨rfl, rfl, rfl, rfl, wrap12_le _, id, id⟩

namespace State.KeepsControl

variable {s t : State} (h : s.KeepsControl t)
include h

/-- The register file is not among the elements of `KeepsControl`. -/
theorem withV (v : Vector Byte 16) : s.KeepsControl { t with v := v } :=
  ⟨h.mode, h.haltReason, h.stack, h.sp, h.pc_le, h.i_le, h.mem_wf⟩

theorem setV (x : Reg) (b : Byte) : s.KeepsControl (t.setV x b) := h.withV _

theorem setFlagThen (x : Reg) (flag result : Byte) : s.KeepsControl (t.setFlagThen x flag result) :=
  (h.setV vf flag).setV x result

theorem loadRegs (n : Nat) : s.KeepsControl (loadRegs t n) := by
  obtain ⟨v, hv⟩ := loadRegs_eq t n
  exact hv ▸ h.withV v

theorem setPc (n : Nat) : s.KeepsControl (t.setPc n) :=
  ⟨h.mode, h.haltReason, h.stack, h.sp, wrap12_le n, h.i_le, h.mem_wf⟩

theorem skipIf (c : Bool) : s.KeepsControl (t.skipIf c) := by
  cases c
  · exact h
  · exact h.setPc _

theorem setI {w : Word} (hw : w.toNat ≤ 0xFFF) : s.KeepsControl (t.setI w) :=
  ⟨h.mode, h.haltReason, h.stack, h.sp, h.pc_le, fun _ => hw, h.mem_wf⟩

theorem setMem {m : Memory} (hm : Memory.wf s.mem = true → Memory.wf m = true) : s.KeepsControl (t.setMem m) :=
  ⟨h.mode, h.haltReason, h.stack, h.sp, h.pc_le, h.i_le, hm⟩

theorem setDt (b : Byte) : s.KeepsControl (t.setDt b) :=
  ⟨h.mode, h.haltReason, h.stack, h.sp, h.pc_le, h.i_le, h.mem_wf⟩

theorem setSt (b : Byte) : s.KeepsControl (t.setSt b) :=
  ⟨h.mode, h.haltReason, h.stack, h.sp, h.pc_le, h.i_le, h.mem_wf⟩

theorem setFb (fb : Display) : s.KeepsControl (t.setFb fb) :=
  ⟨h.mode, h.haltReason, h.stack, h.sp, h.pc_le, h.i_le, h.mem_wf⟩

theorem countDraw : s.KeepsControl t.countDraw :=
  ⟨h.mode, h.haltReason, h.stack, h.sp, h.pc_le, h.i_le, h.mem_wf⟩

end State.KeepsControl

theorem keepsControl_rndEffect (r : Byte) (x : Reg) (kk : Byte) (s : State) : s.KeepsControl (rndEffect r x kk s) :=
  s.keepsControl_advance.setV x _

/-- A 12-bit address keeps its value in I (R120). -/
theorem setWidth_addr_le (nnn : Addr) : (nnn.setWidth 16).toNat ≤ 0xFFF := by
  have := nnn.isLt
  rw [BitVec.toNat_setWidth]
  omega

/-- Every glyph address fits I within R37, whatever the byte: at most `0x050 + 255 * 5` (R122). -/
theorem glyphAddress_le (b : Byte) : (BitVec.ofNat 16 (glyphAddress b)).toNat ≤ 0xFFF := by
  have hb := b.isLt
  have hle : glyphAddress b ≤ 0xFFF := by
    unfold glyphAddress Config.fontBase Config.glyphSize
    omega
  rw [BitVec.toNat_ofNat]
  exact (Nat.mod_le _ _).trans hle

/-- Every instruction but the return, the call and the key wait leaves MODE and the stack alone (R26, R30). -/
theorem exec_keepsControl (i : Instr) (s t : State) (hw : ∀ x, i ≠ .ldVxK x) (hr : i ≠ .ret)
    (hc : ∀ nnn, i ≠ .call nnn) (h : exec i s = .next t) : s.KeepsControl t := by
  have ha := s.keepsControl_advance
  cases i with
  | ldVxK x => exact absurd rfl (hw x)
  | ret => exact absurd rfl hr
  | call nnn => exact absurd rfl (hc nnn)
  | jp | jpV0 => cases h; exact ha.setPc _
  | seByte | sneByte | seReg | sneReg | skp | sknp => cases h; exact ha.skipIf _
  | ldByte | addByte | ldReg | orReg | andReg | xorReg | ldVxDt => cases h; exact ha.setV _ _
  | addReg | subReg | shr | subnReg | shl => cases h; exact ha.setFlagThen _ _ _
  | rnd x kk => cases h; exact (keepsControl_rndEffect _ x kk s).countDraw
  | cls => cases h; exact ha.setFb _
  | drw => cases h; exact (ha.setFb _).setV _ _
  | ldDtVx => cases h; exact ha.setDt _
  | ldStVx => cases h; exact ha.setSt _
  | ldI nnn => cases h; exact ha.setI (setWidth_addr_le nnn)
  | addI => cases h; exact ha.setI (wrap12_le _)
  | ldF => cases h; exact ha.setI (glyphAddress_le _)
  | ldB | ldMemVx => cases h; exact ha.setMem (Memory.wf_writeBytes _ _ _)
  | ldVxMem => cases h; exact ha.loadRegs _

/-- The four kinds of instruction, as MODE and the stack see them. -/
theorem exec_cases (i : Instr) (s t : State) (h : exec i s = .next t) :
    (∃ x, i = .ldVxK x ∧ t = s.beginWait x) ∨
    (i = .ret ∧ execRet s = .next t) ∨
    (∃ nnn, i = .call nnn ∧ execCall nnn s = .next t) ∨
    ((∀ x, i ≠ .ldVxK x) ∧ i ≠ .ret ∧ (∀ nnn, i ≠ .call nnn) ∧ s.KeepsControl t) := by
  by_cases hw : ∃ x, i = .ldVxK x
  · obtain ⟨x, rfl⟩ := hw
    exact .inl ⟨x, rfl, (Host.Outcome.next.inj h).symm⟩
  by_cases hr : i = .ret
  · subst hr
    exact .inr (.inl ⟨rfl, h⟩)
  by_cases hc : ∃ nnn, i = .call nnn
  · obtain ⟨nnn, rfl⟩ := hc
    exact .inr (.inr (.inl ⟨nnn, rfl, h⟩))
  rw [not_exists] at hw hc
  exact .inr (.inr (.inr ⟨hw, hr, hc, exec_keepsControl i s t hw hr hc h⟩))

/-- The step with the host's byte is the model's own step, except that Cxkk reads the host's byte (R86, R113). -/
theorem stepWith_cases (rnd : Byte) (s t : State) (h : stepWith rnd s = .next t) :
    step s = .next t ∨
    ∃ x kk, s.mode = .running ∧ decode s.fetchWord = .instr (.rnd x kk) ∧ t = rndEffect rnd x kk s := by
  unfold stepWith at h
  split at h
  · next x kk hm hd => exact .inr ⟨x, kk, hm, hd, (Host.Outcome.next.inj h).symm⟩
  · exact .inl h

/-! ## What keeps a state legal (R37) -/

theorem State.KeepsControl.legal {s t : State} (h : s.KeepsControl t) (hs : s.Legal) : t.Legal where
  pc_le := h.pc_le
  i_le := h.i_le hs.i_le
  stack_le := by rw [h.stack, h.sp]; exact hs.stack_le
  reason_none_iff := by rw [h.haltReason, h.mode]; exact hs.reason_none_iff
  mem_wf := h.mem_wf hs.mem_wf

namespace State.Legal

variable {s : State} (hs : s.Legal)
include hs

/-- Outside HALTED no halt reason is recorded (R32). -/
theorem haltReason_eq_none (hm : s.mode ≠ .halted) : s.haltReason = .none := hs.reason_none_iff.2 hm

theorem beginWait (x : Reg) (hm : s.mode ≠ .halted) : (s.beginWait x).Legal :=
  { hs with reason_none_iff := iff_of_true (hs.haltReason_eq_none hm) nofun }

theorem endWait (k : Fin Config.numKeys) (hm : s.mode ≠ .halted) : (s.endWait k).Legal :=
  { hs with pc_le := wrap12_le _, reason_none_iff := iff_of_true (hs.haltReason_eq_none hm) nofun }

theorem keyWaitStep (hm : s.mode = .awaitingKey) : s.keyWaitStep.Legal := by
  unfold State.keyWaitStep
  split
  · next k _ => exact hs.endWait k (by rw [hm]; nofun)
  · exact hs

theorem raiseFatal {r : HaltReason} (hr : r ≠ .none) : (s.raiseFatal r).Legal :=
  { hs with reason_none_iff := iff_of_false hr (fun hm => hm rfl) }

theorem execRet {t : State} (h : execRet s = .next t) : t.Legal := by
  obtain ⟨-, rfl⟩ | ⟨j, hj, rfl⟩ := execRet_cases s t h
  · exact hs.raiseFatal nofun
  · have hlt (k : Fin Config.stackDepth) (hk : k.val < j.val) : k.val < s.sp.val := by
      rw [hj]
      exact Nat.lt_succ_of_lt hk
    exact { hs with pc_le := wrap12_le _, stack_le := fun k hk => hs.stack_le k (hlt k hk) }

theorem execCall {nnn : Addr} {t : State} (h : execCall nnn s = .next t) : t.Legal := by
  obtain ⟨-, rfl⟩ | ⟨j, hj, rfl⟩ := execCall_cases nnn s t h
  · exact hs.raiseFatal nofun
  · refine { hs with pc_le := wrap12_le _, stack_le := fun k hk => ?_ }
    by_cases hkj : j.val = k.val
    · simp only [hkj, Vector.getElem_set_self]
      exact wrap12_le _
    · have hlt : k.val < s.sp.val := by
        have : k.val < j.val + 1 := hk
        rw [hj, Fin.val_castSucc]
        omega
      simp only [Vector.getElem_set_ne _ _ hkj]
      exact hs.stack_le k hlt

/-- A RUNNING step's instruction keeps the ranges; Fx0A needs MODE, since the wait records no halt reason. -/
theorem exec {i : Instr} {t : State} (hm : s.mode = .running) (h : exec i s = .next t) : t.Legal := by
  obtain ⟨x, -, rfl⟩ | ⟨-, hret⟩ | ⟨nnn, -, hcall⟩ | ⟨-, -, -, hk⟩ := exec_cases i s t h
  · exact hs.beginWait x (by rw [hm]; nofun)
  · exact hs.execRet hret
  · exact hs.execCall hcall
  · exact hk.legal hs

theorem step {t : State} (h : step s = .next t) : t.Legal := by
  obtain ⟨-, rfl⟩ | ⟨hm, rfl⟩ | ⟨i, hm, -, hexec⟩ | ⟨op, -, -, rfl⟩ := step_cases s t h
  · exact hs
  · exact hs.keyWaitStep hm
  · exact hs.exec hm hexec
  · exact s.keepsControl_advance.legal hs

theorem stepWith {rnd : Byte} {t : State} (h : stepWith rnd s = .next t) : t.Legal := by
  obtain hstep | ⟨x, kk, -, -, rfl⟩ := stepWith_cases rnd s t h
  · exact hs.step hstep
  · exact (keepsControl_rndEffect rnd x kk s).legal hs

theorem tick60Hz : s.tick60Hz.Legal := by
  unfold State.tick60Hz
  split
  · exact hs
  · exact { hs with }

theorem setKeys (keys : Keypad) : (s.setKeys keys).Legal := { hs with }

theorem loadRom (bytes : List Byte) : (s.loadRom bytes).2.Legal := by
  unfold State.loadRom
  split
  · exact hs
  · exact { hs with mem_wf := Memory.wf_writeBytes _ _ _ hs.mem_wf }

end State.Legal

/-- A reset gives a legal state, whatever the stack entries: SP is 0, so none of them counts (R26, R35). -/
theorem State.reinitialise_legal (font : Vector Byte Config.fontSize) (s : State) : (s.reinitialise font).Legal where
  pc_le := show State.reset.pc.toNat ≤ 0xFFF by decide
  i_le := show State.reset.i.toNat ≤ 0xFFF by decide
  stack_le := fun j hj => absurd hj (Nat.not_lt_zero j.val)
  reason_none_iff := iff_of_true rfl nofun
  mem_wf := Memory.wf_resetWith font

/-- The first reset of a block is one that finds the stack entries of State.reset. -/
theorem State.resetWith_legal (font : Vector Byte Config.fontSize) : (State.resetWith font).Legal :=
  State.reinitialise_legal font State.reset

/-! ## Commands and runs of commands (R6, R7) -/

theorem stepReply_next (s : State) (o : Host.Outcome State Fault Refusal) (b : Block) (r : Reply)
    (h : stepReply s o = .next (b, r)) : ∃ t, o = .next t ∧ b = .ready t := by
  cases o with
  | next t => cases h; exact ⟨t, rfl, rfl⟩
  | fault e => cases h
  | refused e => cases h

theorem State.command_legal (font : Vector Byte Config.fontSize) (c : Command) (s : State) (b : Block) (r : Reply)
    (hs : s.Legal) (h : s.command font c = .next (b, r)) : b.Legal := by
  cases c with
  | init => cases h; exact s.reinitialise_legal font
  | loadRom bytes => cases h; exact hs.loadRom bytes
  | step rnd =>
    obtain ⟨t, ht, rfl⟩ := stepReply_next s _ b r h
    exact hs.stepWith ht
  | tick60Hz => cases h; exact hs.tick60Hz
  | setKeys keys => cases h; exact hs.setKeys keys
  | getDisplay | isSoundActive | awaitingKey => cases h; exact hs

theorem Block.command_legal (font : Vector Byte Config.fontSize) (c : Command) (b b' : Block) (r : Reply)
    (hb : b.Legal) (h : b.command font c = .next (b', r)) : b'.Legal := by
  cases b with
  | ready s => exact s.command_legal font c b' r hb h
  | uninitialised =>
    cases c with
    | init => cases h; exact State.resetWith_legal font
    | _ => cases h

/-- A run that is answered answers its first command and then the rest. -/
theorem Block.run_cons (font : Vector Byte Config.fontSize) (c : Command) (cs : List Command) (b b' : Block)
    (rs : List Reply) (h : Block.run font (c :: cs) b = .next (b', rs)) :
    ∃ b₁ r rs₁, b.command font c = .next (b₁, r) ∧ Block.run font cs b₁ = .next (b', rs₁) ∧ rs = r :: rs₁ := by
  unfold Block.run at h
  split at h
  · next b₁ r hc =>
    split at h
    · next b₂ rs₁ hrun => cases h; exact ⟨b₁, r, rs₁, hc, hrun, rfl⟩
    · cases h
    · cases h
  · cases h
  · cases h

/-- The invariant of R37 along a run, by induction on its commands. -/
theorem Block.run_legal (font : Vector Byte Config.fontSize) (cs : List Command) (b b' : Block) (rs : List Reply)
    (hb : b.Legal) (h : Block.run font cs b = .next (b', rs)) : b'.Legal := by
  induction cs generalizing b rs with
  | nil => cases h; exact hb
  | cons c cs ih =>
    obtain ⟨b₁, r, rs₁, hc, hrun, -⟩ := Block.run_cons font c cs b b' rs h
    exact ih b₁ rs₁ (Block.command_legal font c b b₁ r hb hc) hrun

/-! ## The result of a step, said of the state before it (R151) -/

/-- The result of a RUNNING step that runs `i` (R90, R92, R145, R151). -/
def instrResult (i : Instr) (s : State) : StepResult :=
  match i with
  | .ldVxK _ => .waiting
  | .ret => if s.sp.val = 0 then .fatal .stackUnderflow else .executed
  | .call _ => if s.sp.val = Config.stackDepth then .fatal .stackOverflow else .executed
  | _ => .executed

/-- The result of a step from `s`, without looking at the state it ends in (`stepResult_eq`). -/
def resultFrom (s : State) : StepResult :=
  match s.mode with
  | .halted => .fatal s.haltReason
  | .awaitingKey => if lowestKey s.keys = none then .waiting else .executed
  | .running =>
    match decode s.fetchWord with
    | .unknown op => .unknown op
    | .instr i => instrResult i s

section
variable {s t : State}

theorem resultFrom_halted (hm : s.mode = .halted) : resultFrom s = .fatal s.haltReason := by
  rw [resultFrom, hm]

theorem resultFrom_awaiting (hm : s.mode = .awaitingKey) :
    resultFrom s = if lowestKey s.keys = none then .waiting else .executed := by
  rw [resultFrom, hm]

theorem resultFrom_instr {i : Instr} (hm : s.mode = .running) (hd : decode s.fetchWord = .instr i) :
    resultFrom s = instrResult i s := by
  rw [resultFrom, hm, hd]

theorem resultFrom_unknown {op : Word} (hm : s.mode = .running) (hd : decode s.fetchWord = .unknown op) :
    resultFrom s = .unknown op := by
  rw [resultFrom, hm, hd]

theorem stepResult_of_halted (ht : t.mode = .halted) : stepResult s t = .fatal t.haltReason := by
  rw [stepResult, ht]

theorem stepResult_of_awaiting (ht : t.mode = .awaitingKey) : stepResult s t = .waiting := by
  rw [stepResult, ht]

/-- A step that leaves RUNNING and came from no UNKNOWN word is Executed. -/
theorem stepResult_of_instr {i : Instr} (ht : t.mode = .running) (hd : decode s.fetchWord = .instr i) :
    stepResult s t = .executed := by
  rw [stepResult, ht, hd]
  cases s.mode <;> rfl

theorem stepResult_of_awaited (ht : t.mode = .running) (hm : s.mode = .awaitingKey) : stepResult s t = .executed := by
  rw [stepResult, ht, hm]

theorem stepResult_of_unknown {op : Word} (ht : t.mode = .running) (hm : s.mode = .running)
    (hd : decode s.fetchWord = .unknown op) : stepResult s t = .unknown op := by
  rw [stepResult, ht, hm, hd]

end

theorem instrResult_of_other (i : Instr) (s : State) (hw : ∀ x, i ≠ .ldVxK x) (hr : i ≠ .ret)
    (hc : ∀ nnn, i ≠ .call nnn) : instrResult i s = .executed := by
  unfold instrResult
  split
  · next x => exact absurd rfl (hw x)
  · exact absurd rfl hr
  · next nnn => exact absurd rfl (hc nnn)
  · rfl

theorem stepResult_exec (i : Instr) (s t : State) (hm : s.mode = .running) (hd : decode s.fetchWord = .instr i)
    (h : exec i s = .next t) : stepResult s t = instrResult i s := by
  obtain ⟨x, rfl, rfl⟩ | ⟨rfl, hret⟩ | ⟨nnn, rfl, hcall⟩ | ⟨hw, hr, hc, hk⟩ := exec_cases i s t h
  · exact stepResult_of_awaiting rfl
  · obtain ⟨h0, rfl⟩ | ⟨j, hj, ht⟩ := execRet_cases s t hret
    · rw [stepResult_of_halted rfl, instrResult, if_pos h0]
      rfl
    · rw [stepResult_of_instr (ht ▸ hm) hd, instrResult, if_neg (by rw [hj]; exact Nat.succ_ne_zero _)]
  · obtain ⟨h0, rfl⟩ | ⟨j, hj, ht⟩ := execCall_cases nnn s t hcall
    · rw [stepResult_of_halted rfl, instrResult, if_pos h0]
      rfl
    · rw [stepResult_of_instr (ht ▸ hm) hd, instrResult, if_neg (by rw [hj]; exact j.isLt.ne)]
  · rw [stepResult_of_instr (hk.mode.trans hm) hd, instrResult_of_other i s hw hr hc]

theorem stepResult_keyWaitStep (s : State) (hm : s.mode = .awaitingKey) :
    stepResult s s.keyWaitStep = if lowestKey s.keys = none then .waiting else .executed := by
  unfold State.keyWaitStep
  cases hk : lowestKey s.keys with
  | none => exact stepResult_of_awaiting hm
  | some k => exact stepResult_of_awaited rfl hm

/-- What a step returns is decided by the state it starts from, whoever gives the random byte. -/
theorem stepResult_eq (rnd : Byte) (s t : State) (h : step s = .next t ∨ stepWith rnd s = .next t) :
    stepResult s t = resultFrom s := by
  have hcases : step s = .next t ∨
      ∃ x kk, s.mode = .running ∧ decode s.fetchWord = .instr (.rnd x kk) ∧ t = rndEffect rnd x kk s :=
    h.elim .inl (stepWith_cases rnd s t)
  obtain hstep | ⟨x, kk, hm, hd, rfl⟩ := hcases
  · obtain ⟨hm, rfl⟩ | ⟨hm, rfl⟩ | ⟨i, hm, hd, hexec⟩ | ⟨op, hm, hd, rfl⟩ := step_cases s t hstep
    · rw [resultFrom_halted hm, stepResult_of_halted hm]
    · rw [resultFrom_awaiting hm, stepResult_keyWaitStep s hm]
    · rw [resultFrom_instr hm hd, stepResult_exec i s t hm hd hexec]
    · rw [resultFrom_unknown hm hd, stepResult_of_unknown (t := s.advance) hm hm hd]
  · rw [resultFrom_instr hm hd, stepResult_of_instr (t := rndEffect rnd x kk s) hm hd]
    rfl

/-! ## When each result is returned -/

theorem instrResult_eq_waiting (i : Instr) (s : State) : instrResult i s = .waiting ↔ ∃ x, i = .ldVxK x := by
  unfold instrResult
  split
  · simp
  · split <;> simp
  · split <;> simp
  · next hw _ _ => simpa using hw

theorem instrResult_eq_underflow (i : Instr) (s : State) :
    instrResult i s = .fatal .stackUnderflow ↔ i = .ret ∧ s.sp.val = 0 := by
  unfold instrResult
  split
  · simp
  · split <;> simp_all
  · split <;> simp
  · next hr _ => simpa using fun hi => (hr hi).elim

theorem instrResult_eq_overflow (i : Instr) (s : State) :
    instrResult i s = .fatal .stackOverflow ↔ (∃ nnn, i = .call nnn) ∧ s.sp.val = Config.stackDepth := by
  unfold instrResult
  split
  · simp
  · split <;> simp
  · split <;> simp_all
  · next hc => simpa using fun nnn hi => (hc nnn hi).elim

theorem instrResult_ne_unknown (i : Instr) (s : State) (op : Word) : instrResult i s ≠ .unknown op := by
  unfold instrResult
  split
  · nofun
  · split <;> nofun
  · split <;> nofun
  · nofun

theorem instrResult_ne_fatal_none (i : Instr) (s : State) : instrResult i s ≠ .fatal .none := by
  unfold instrResult
  split
  · nofun
  · split <;> nofun
  · split <;> nofun
  · nofun

theorem resultFrom_eq_waiting (s : State) :
    resultFrom s = .waiting ↔
      (s.mode = .running ∧ ∃ x, decode s.fetchWord = .instr (.ldVxK x)) ∨
      (s.mode = .awaitingKey ∧ ∀ k : Fin Config.numKeys, s.keys[k.val] = false) := by
  rw [← lowestKey_none]
  cases hm : s.mode with
  | halted => simp [resultFrom_halted hm]
  | awaitingKey => simp [resultFrom_awaiting hm]
  | running =>
    cases hd : decode s.fetchWord with
    | instr i => simp [resultFrom_instr hm hd, instrResult_eq_waiting]
    | unknown op => simp [resultFrom_unknown hm hd]

theorem resultFrom_eq_unknown (s : State) (op : Word) :
    resultFrom s = .unknown op ↔ s.mode = .running ∧ decode s.fetchWord = .unknown op := by
  cases hm : s.mode with
  | halted => simp [resultFrom_halted hm]
  | awaitingKey => simp [resultFrom_awaiting hm, ite_eq_iff]
  | running =>
    cases hd : decode s.fetchWord with
    | instr i => simp [resultFrom_instr hm hd, instrResult_ne_unknown]
    | unknown op' => simp [resultFrom_unknown hm hd]

/-- A fatal result comes from the instruction that runs, or is the one a HALTED core recorded (R83, R85). -/
theorem resultFrom_eq_fatal (s : State) (r : HaltReason) :
    resultFrom s = .fatal r ↔
      (s.mode = .running ∧ ∃ i, decode s.fetchWord = .instr i ∧ instrResult i s = .fatal r) ∨
      (s.mode = .halted ∧ s.haltReason = r) := by
  cases hm : s.mode with
  | halted => simp [resultFrom_halted hm]
  | awaitingKey => simp [resultFrom_awaiting hm, ite_eq_iff]
  | running =>
    cases hd : decode s.fetchWord with
    | instr i => simp [resultFrom_instr hm hd]
    | unknown op => simp [resultFrom_unknown hm hd]

theorem resultFrom_eq_underflow (s : State) :
    resultFrom s = .fatal .stackUnderflow ↔
      (s.mode = .running ∧ decode s.fetchWord = .instr .ret ∧ s.sp.val = 0) ∨
      (s.mode = .halted ∧ s.haltReason = .stackUnderflow) := by
  simp [resultFrom_eq_fatal, instrResult_eq_underflow]

theorem resultFrom_eq_overflow (s : State) :
    resultFrom s = .fatal .stackOverflow ↔
      (s.mode = .running ∧ (∃ nnn, decode s.fetchWord = .instr (.call nnn)) ∧ s.sp.val = Config.stackDepth) ∨
      (s.mode = .halted ∧ s.haltReason = .stackOverflow) := by
  simp only [resultFrom_eq_fatal, instrResult_eq_overflow]
  constructor
  · rintro (⟨hm, _, hd, ⟨nnn, rfl⟩, hsp⟩ | hh)
    · exact .inl ⟨hm, ⟨nnn, hd⟩, hsp⟩
    · exact .inr hh
  · rintro (⟨hm, ⟨nnn, hd⟩, hsp⟩ | hh)
    · exact .inl ⟨hm, _, hd, ⟨nnn, rfl⟩, hsp⟩
    · exact .inr hh

/-- From a legal state no step answers the one fatal value that R151 gives no code. -/
theorem resultFrom_ne_fatal_none (s : State) (hs : s.Legal) : resultFrom s ≠ .fatal .none := by
  rw [Ne, resultFrom_eq_fatal]
  rintro (⟨-, i, -, hi⟩ | ⟨hm, hr⟩)
  · exact instrResult_ne_fatal_none i s hi
  · exact hs.reason_none_iff.1 hr hm

/-! ## The codes and the outputs of a step (R87, R151) -/

theorem StepResult.code_le (r : StepResult) (h : r ≠ .fatal .none) : ∃ n, r.code = some n ∧ n ≤ 4 := by
  cases r with
  | executed => exact ⟨0, rfl, by decide⟩
  | waiting => exact ⟨1, rfl, by decide⟩
  | unknown op => exact ⟨2, rfl, by decide⟩
  | fatal reason =>
    cases reason with
    | none => exact absurd rfl h
    | stackUnderflow => exact ⟨3, rfl, by decide⟩
    | stackOverflow => exact ⟨4, rfl, by decide⟩

/-- Each code of 1 to 4 belongs to one result alone. -/
theorem StepResult.code_eq_iff (r : StepResult) :
    (r.code = some 1 ↔ r = .waiting) ∧ (r.code = some 2 ↔ ∃ op, r = .unknown op) ∧
    (r.code = some 3 ↔ r = .fatal .stackUnderflow) ∧ (r.code = some 4 ↔ r = .fatal .stackOverflow) := by
  cases r with
  | fatal reason => cases reason <;> simp [StepResult.code]
  | _ => simp [StepResult.code]

theorem stepOpcode_running (s : State) (hm : s.mode = .running) : stepOpcode s = some s.fetchWord := by
  rw [stepOpcode, hm]

theorem stepOpcode_not_running (s : State) (hm : s.mode ≠ .running) : stepOpcode s = none := by
  unfold stepOpcode
  split
  · next h => exact absurd h hm
  · rfl

/-- The command `step(rnd)` replies with the result and the opcode of the step it makes (R6). -/
theorem State.command_step (font : Vector Byte Config.fontSize) (rnd : Byte) (s t : State)
    (h : stepWith rnd s = .next t) :
    s.command font (.step rnd) = .next (.ready t, .stepped (stepResult s t) (stepOpcode s)) := by
  rw [State.command, h]
  rfl

/-! ## The obligations -/

/-- Settles O12, by induction on the list of commands (`Block.run_legal`): each command keeps the block legal. -/
theorem everyCommandRunKeepsLegal : Obligations.EveryCommandRunKeepsLegal := Block.run_legal

/-- Settles O15: the result is a function of the state before the step (`stepResult_eq`), whose values the lemmas
`resultFrom_eq_waiting` and its fellows characterise; legality serves only to exclude the fatal value without a code. -/
theorem stepResultTable : Obligations.StepResultTable := by
  intro font rnd s t hs h
  rw [stepResult_eq rnd s t h]
  obtain ⟨hone, htwo, hthree, hfour⟩ := (resultFrom s).code_eq_iff
  refine ⟨resultFrom_eq_waiting s, resultFrom_eq_unknown s, resultFrom_eq_underflow s, resultFrom_eq_overflow s,
    (resultFrom s).code_le (resultFrom_ne_fatal_none s hs), hone, htwo, hthree, hfour,
    stepOpcode_running s, stepOpcode_not_running s, fun hwith => ?_⟩
  rw [← stepResult_eq rnd s t h]
  exact s.command_step font rnd t hwith

end Sys2Proof.Machine
end

section
/-! PROOF. Which elements of the state an instruction, a step and a reset write, and to what (spec/10_state.md R22-R37):
the frames over all instructions, the changes of MODE, the canonical form of memory, and the state after `initialize`. -/

namespace Sys2Proof.Machine

/-! ## Legal states (R37) and refused commands (R36) -/

/-- The memory of the default font differs nowhere from the reset contents, so it lists nothing (R45, R46). -/
theorem State.reset_eq_resetWith : State.reset = State.resetWith Config.font := by
  have hmem : Memory.resetWith Config.font = [] := by decide
  rw [State.resetWith, hmem]
  rfl

/-- Settles O11: each of the four kinds of step keeps the ranges (`State.Legal.step`). -/
theorem stepKeepsLegal : Obligations.StepKeepsLegal := fun _ _ hs h => hs.step h

/-- Settles O13: State.reset is the reset with the default font, and every font's reset is legal. -/
theorem resetIsLegal : Obligations.ResetIsLegal :=
  ⟨State.reset_eq_resetWith ▸ State.resetWith_legal Config.font, State.resetWith_legal, trivial⟩

/-- Settles O53, by cases on the command: only `initialize` has an arm of its own on an uninitialised block. -/
theorem nothingBeforeInitialize : Obligations.NothingBeforeInitialize := by
  intro font c hc
  cases c with
  | init => exact absurd rfl hc
  | _ => rfl

/-! ## Changes of MODE (R30) -/

/-- A key wait that changes MODE ended on a key that is down (R146). -/
theorem keyWaitStep_mode_ne (s : State) (h : s.keyWaitStep.mode ≠ s.mode) :
    s.keyWaitStep.mode = .running ∧ ∃ k : Fin Config.numKeys, s.keys[k.val] = true := by
  unfold State.keyWaitStep at h ⊢
  cases hk : lowestKey s.keys with
  | none => rw [hk] at h; exact absurd rfl h
  | some k => exact ⟨rfl, k, (lowestKey_some s.keys k hk).1⟩

/-- An instruction that changes MODE is an Fx0A, or a return or a call that raised its fatal error (R145, R153). -/
theorem exec_mode_ne (i : Instr) (s t : State) (h : exec i s = .next t) (hne : t.mode ≠ s.mode) :
    (∃ x, i = .ldVxK x ∧ t = s.beginWait x) ∨
    (t.mode = .halted ∧ ((i = .ret ∧ s.sp.val = 0) ∨ ∃ nnn, i = .call nnn ∧ s.sp.val = Config.stackDepth)) := by
  obtain hwait | ⟨rfl, hret⟩ | ⟨nnn, rfl, hcall⟩ | ⟨-, -, -, hk⟩ := exec_cases i s t h
  · exact .inl hwait
  · obtain ⟨h0, rfl⟩ | ⟨j, -, rfl⟩ := execRet_cases s t hret
    · exact .inr ⟨rfl, .inl ⟨rfl, h0⟩⟩
    · exact absurd rfl hne
  · obtain ⟨hfull, rfl⟩ | ⟨j, -, rfl⟩ := execCall_cases nnn s t hcall
    · exact .inr ⟨rfl, .inr ⟨nnn, rfl, hfull⟩⟩
    · exact absurd rfl hne
  · exact absurd hk.mode hne

/-- Settles O16: of the four kinds of step only the key wait (`keyWaitStep_mode_ne`) and the instruction (`exec_mode_ne`)
can change MODE. -/
theorem onlyNamedEventsChangeMode : Obligations.OnlyNamedEventsChangeMode := by
  intro s t h hne
  obtain ⟨-, rfl⟩ | ⟨hm, rfl⟩ | ⟨i, hm, hd, hexec⟩ | ⟨op, -, -, rfl⟩ := step_cases s t h
  · exact absurd rfl hne
  · exact .inr (.inl ⟨hm, keyWaitStep_mode_ne s hne⟩)
  · obtain ⟨x, rfl, rfl⟩ | ⟨ht, hfatal⟩ := exec_mode_ne i s t hexec hne
    · exact .inl ⟨hm, rfl, x, hd, rfl, rfl⟩
    · refine .inr (.inr ⟨hm, ht, ?_⟩)
      obtain ⟨rfl, h0⟩ | ⟨nnn, rfl, hfull⟩ := hfatal
      · exact .inl ⟨hd, h0⟩
      · exact .inr ⟨nnn, hd, hfull⟩
  · exact absurd rfl hne

/-! ## Frames over all instructions (R22-R32) -/

/-- A return changes no register (R90). -/
theorem execRet_getV (s t : State) (r : Reg) (h : execRet s = .next t) : t.getV r = s.getV r := by
  obtain ⟨-, rfl⟩ | ⟨j, -, rfl⟩ := execRet_cases s t h
  · rfl
  · rfl

/-- A call changes no register (R92). -/
theorem execCall_getV (nnn : Addr) (s t : State) (r : Reg) (h : execCall nnn s = .next t) : t.getV r = s.getV r := by
  obtain ⟨-, rfl⟩ | ⟨j, -, rfl⟩ := execCall_cases nnn s t h
  · rfl
  · rfl

/-- Settles O18, by cases on the instruction: each writes no register, V[x], VF and V[x], VF alone, or V0..Vx. -/
theorem onlyDestinationRegistersChange : Obligations.OnlyDestinationRegistersChange := by
  intro i s t r h hw
  cases i with
  | ret => exact execRet_getV s t r h
  | call nnn => exact execCall_getV nnn s t r h
  | cls | jp | jpV0 | ldI | addI | ldF | ldB | ldMemVx | ldDtVx | ldStVx | ldVxK => cases h; rfl
  | seByte | sneByte | seReg | sneReg | skp | sknp => cases h; exact s.advance.skipIf_getV _ r
  | ldByte | addByte | ldReg | orReg | andReg | xorReg | ldVxDt | rnd =>
    cases h
    exact s.advance.getV_setV_other _ r _ (by simpa [writesV] using hw)
  | addReg | subReg | shr | subnReg | shl =>
    cases h
    obtain ⟨hx, hvf⟩ : r ≠ _ ∧ r ≠ vf := by simpa [writesV] using hw
    rw [State.getV_setFlagThen, if_neg hx, if_neg hvf, State.advance_getV]
  | drw x y n =>
    cases h
    exact (s.advance.setFb _).getV_setV_other vf r _ (by simpa [writesV] using hw)
  | ldVxMem x =>
    cases h
    have hx : ¬ r.val < x.val + 1 := fun hlt => absurd (Nat.le_of_lt_succ hlt) (of_decide_eq_false hw)
    rw [getV_loadRegs s.advance _ x.isLt r, if_neg hx, State.advance_getV]

/-- Settles O20, by cases on the instruction. A return, a call and a run of loads are known by what they can do; every
other instruction is a chain of named updates, of which at most one writes an element named here, and the field lemmas of
the updates say so. -/
theorem eachElementChangesOnlyByItsWriters : Obligations.EachElementChangesOnlyByItsWriters := by
  intro i s t h
  cases i with
  | ret => obtain ⟨-, rfl⟩ | ⟨j, -, rfl⟩ := execRet_cases s t h <;> simp
  | call nnn => obtain ⟨-, rfl⟩ | ⟨j, -, rfl⟩ := execCall_cases nnn s t h <;> simp
  | ldVxMem x =>
    cases h
    obtain ⟨v, hv⟩ := loadRegs_eq s.advance (x.val + 1)
    rw [hv]
    simp
  | rnd => cases h; simp [rndEffect]
  | _ => cases h; simp

/-- A straight-line instruction keeps the pre-advance and writes PC no more (R81, R82). -/
theorem exec_pc_of_straight (i : Instr) (s t : State) (h : exec i s = .next t) (hi : touchesPc i = false) :
    t.pc = s.advance.pc := by
  cases i with
  | ret | jp | call | seByte | sneByte | seReg | sneReg | jpV0 | skp | sknp | ldVxK => cases hi
  | ldVxMem x =>
    cases h
    obtain ⟨v, hv⟩ := loadRegs_eq s.advance (x.val + 1)
    rw [hv]
  | _ => cases h; rfl

/-- PC stays where it was, at an Fx0A or a fatal error, or is reduced modulo 4096 (R25, R83, R145). -/
theorem exec_pc_eq_or_le (i : Instr) (s t : State) (h : exec i s = .next t) : t.pc = s.pc ∨ t.pc.toNat ≤ 0xFFF := by
  obtain ⟨x, -, rfl⟩ | ⟨-, hret⟩ | ⟨nnn, -, hcall⟩ | ⟨-, -, -, hk⟩ := exec_cases i s t h
  · exact .inl rfl
  · obtain ⟨-, rfl⟩ | ⟨j, -, rfl⟩ := execRet_cases s t hret
    · exact .inl rfl
    · exact .inr (wrap12_le _)
  · obtain ⟨-, rfl⟩ | ⟨j, -, rfl⟩ := execCall_cases nnn s t hcall
    · exact .inl rfl
    · exact .inr (wrap12_le _)
  · exact .inr hk.pc_le

/-- Settles O21. -/
theorem straightLineInstructionsAdvancePc : Obligations.StraightLineInstructionsAdvancePc :=
  fun i s t h => ⟨exec_pc_of_straight i s t h, exec_pc_eq_or_le i s t h⟩

/-! ## Call and return (R26, R90, R92) -/

/-- A reduced value is not changed by a second reduction (R25). -/
theorem wrap12_wrap12 (n : Nat) : wrap12 (wrap12 n).toNat = wrap12 n := by
  rw [wrap12_toNat, wrap12, wrap12, Nat.mod_mod]

/-- A return with an entry takes the top entry `j = SP - 1` to PC, and SP falls (R90). -/
theorem exec_ret_of_entry (s : State) (j : Fin Config.stackDepth) (h : s.sp = j.succ) :
    exec .ret s = .next { s with pc := wrap12 (s.stack[j.val]).toNat, sp := j.castSucc } := by
  rw [exec, execRet, State.pop_entry s.advance j h]
  rfl

/-- Settles O25: the entry that the return takes is the one the call wrote, p + 2 already reduced, and every lower entry
is another one. -/
theorem returnUndoesCall : Obligations.ReturnUndoesCall := by
  intro nnn s t hroom h
  obtain ⟨hfull, -⟩ | ⟨j, hj, rfl⟩ := execCall_cases nnn s t h
  · exact absurd hfull hroom.ne
  refine ⟨_, exec_ret_of_entry _ j rfl, ?_, hj.symm, ?_, fun k hk => ?_⟩
  · simp only [Vector.getElem_set_self]
    exact wrap12_wrap12 _
  · rw [← hj]
  · have hne : j.val ≠ k.val := by
      rw [hj] at hk
      exact hk.ne'
    exact Vector.getElem_set_ne j.isLt k.isLt hne

/-! ## The canonical form of memory (R34, R50) -/

/-- The head of a canonical list is no background byte, so no list that starts above it reads the same there. -/
theorem Memory.lookup_head_ne (lo k : Nat) (c : Byte) (m m' : Memory) (hm : Memory.wfFrom lo ((k, c) :: m) = true)
    (hm' : Memory.wfFrom (k + 1) m' = true) : Memory.lookup ((k, c) :: m) k ≠ Memory.lookup m' k := by
  obtain ⟨-, -, hc, -⟩ := (Memory.wfFrom_cons lo k c m).1 hm
  rwa [Memory.lookup_cons, if_pos rfl, Memory.lookup_below m' (k + 1) k k.lt_succ_self hm']

/-- Canonical lists that read the same at every address are equal: their heads must be the same cell, and below it both
tails read as the background. -/
theorem Memory.eq_of_lookup_eq (m m' : Memory) (lo : Nat) (hm : Memory.wfFrom lo m = true)
    (hm' : Memory.wfFrom lo m' = true)
    (h : ∀ a, a < Config.memSize → Memory.lookup m a = Memory.lookup m' a) : m = m' := by
  induction m generalizing m' lo with
  | nil =>
    cases m' with
    | nil => rfl
    | cons kc m' =>
      obtain ⟨k, c⟩ := kc
      obtain ⟨-, hk, -⟩ := (Memory.wfFrom_cons lo k c m').1 hm'
      exact absurd (h k hk).symm (Memory.lookup_head_ne lo k c m' [] hm' rfl)
  | cons kc m ih =>
    obtain ⟨k, c⟩ := kc
    obtain ⟨-, hk, hc, htail⟩ := (Memory.wfFrom_cons lo k c m).1 hm
    cases m' with
    | nil => exact absurd (h k hk) (Memory.lookup_head_ne lo k c m [] hm rfl)
    | cons kc' m' =>
      obtain ⟨k', c'⟩ := kc'
      obtain ⟨-, hk', hc', htail'⟩ := (Memory.wfFrom_cons lo k' c' m').1 hm'
      obtain hlt | rfl | hgt := lt_trichotomy k k'
      · have habove : Memory.wfFrom (k + 1) ((k', c') :: m') = true :=
          (Memory.wfFrom_cons _ _ _ _).2 ⟨hlt, hk', hc', htail'⟩
        exact absurd (h k hk) (Memory.lookup_head_ne lo k c m _ hm habove)
      · have hcc : c = c' := by simpa [Memory.lookup_cons] using h k hk
        have hrest (a : Nat) (ha : a < Config.memSize) : Memory.lookup m a = Memory.lookup m' a := by
          obtain hbelow | habove := Nat.lt_or_ge a (k + 1)
          · rw [Memory.lookup_below m _ a hbelow htail, Memory.lookup_below m' _ a hbelow htail']
          · have := h a ha
            rwa [Memory.lookup_cons, Memory.lookup_cons, if_neg (by omega), if_neg (by omega)] at this
        rw [hcc, ih m' (k + 1) htail htail' hrest]
      · have habove : Memory.wfFrom (k' + 1) ((k, c) :: m) = true :=
          (Memory.wfFrom_cons _ _ _ _).2 ⟨hgt, hk, hc, htail⟩
        exact absurd (h k' hk').symm (Memory.lookup_head_ne lo k' c' m' _ hm' habove)

/-- An address below 4096 is read where the list has it (R41). -/
theorem Memory.read_of_lt (m : Memory) (a : Nat) (ha : a < Config.memSize) : Memory.read m a = Memory.lookup m a := by
  rw [Memory.read, Nat.mod_eq_of_lt ha]

/-- Settles O41, by induction on the first list (`Memory.eq_of_lookup_eq`). -/
theorem canonicalMemoryIsUnique : Obligations.CanonicalMemoryIsUnique := by
  intro m m' hm hm' h
  refine Memory.eq_of_lookup_eq m m' 0 hm hm' fun a ha => ?_
  rw [← Memory.read_of_lt m a ha, ← Memory.read_of_lt m' a ha]
  exact h a ha

/-! ## The state after `initialize` (R35, R45, R170) -/

/-- Outside the font the reset contents are 0 (R45). -/
theorem Memory.background_outside_font (a : Nat) (h : a < 0x050 ∨ 0x0A0 ≤ a) : Memory.background a = 0 := by
  rw [Memory.background, dif_neg (by simp only [Config.fontBase, Config.fontSize]; omega)]

/-- After a reset the font's bytes stand at 0x050 and upward (R45). -/
theorem Memory.read_resetWith_font (font : Vector Byte Config.fontSize) (j : Nat) (hj : j < Config.fontSize) :
    Memory.read (Memory.resetWith font) (Config.fontBase + j) = font[j] := by
  have hlen : font.toList.length = Config.fontSize := Vector.length_toList
  rw [Memory.resetWith, Memory.read_writeBytes_at [] Config.fontBase _ j font.toList Memory.wf_nil
    (by rw [hlen]; decide) (by rw [hlen]; exact hj) rfl, Vector.getElem_toList]

/-- After a reset every byte outside the font is 0 (R45). -/
theorem Memory.read_resetWith_outside_font (font : Vector Byte Config.fontSize) (a : Nat) (ha : a < Config.memSize)
    (h : a < 0x050 ∨ 0x0A0 ≤ a) : Memory.read (Memory.resetWith font) a = 0 := by
  rw [Memory.resetWith, Memory.read_writeBytes_other, Memory.read_of_lt [] a ha, Memory.lookup_nil,
    Memory.background_outside_font a h]
  intro k hk
  rw [Vector.length_toList] at hk
  simp only [Config.fontBase, Config.fontSize, Config.memSize] at *
  omega

/-- `initialize` gives the reset of some state: the block's own, or State.reset at the first one (R35, R170). -/
theorem Block.command_init (font : Vector Byte Config.fontSize) (b : Block) :
    ∃ s : State, b.command font .init = .next (.ready (s.reinitialise font), .none) := by
  cases b with
  | uninitialised => exact ⟨State.reset, rfl⟩
  | ready s => exact ⟨s, rfl⟩

/-- Settles O51: memory by the two lemmas on `Memory.resetWith`; every other element is the one of State.reset. -/
theorem initializeResetsEverything : Obligations.InitializeResetsEverything := by
  intro font b
  obtain ⟨s, hs⟩ := b.command_init font
  have hv (r : Reg) : State.reset.getV r = 0 := Vector.getElem_replicate r.isLt
  have hkeys (k : Fin Config.numKeys) : State.reset.keys[k.val] = false := Vector.getElem_replicate k.isLt
  exact ⟨s.reinitialise font, hs, Memory.read_resetWith_font font, Memory.read_resetWith_outside_font font, hv, rfl, rfl,
    rfl, rfl, rfl, Display.pixel_clear, hkeys, rfl, rfl, rfl, State.reset_eq_resetWith⟩

end Sys2Proof.Machine
end

section
/-! PROOF. Memory as the steps see it (spec/20_memory.md R41-R44, R52): what a step fetches and runs, which bytes an
instruction stores, and that every step and command is answered (R49, R67). -/

namespace Sys2Proof

/-! ## The decoder reads back the encoder (R61, R62, R64) -/

/-- Decoding the word of an instruction: its family nibble, and its function bits where the family has some, choose the
arm, and the operand fields are read back. -/
theorem decode_encode (i : Instr) : decode (encode i) = .instr i := by
  cases i with
  | cls | ret => rfl
  | jp | call | ldI | jpV0 =>
    rw [encode, decode, fieldHi_encNnn, fieldNnn_encNnn]
    · rfl
    · exact isFamily_of _ rfl
  | seByte | sneByte | ldByte | addByte | rnd =>
    rw [encode, decode, fieldHi_encXkk, fieldX_encXkk, fieldKk_encXkk]
    · rfl
    all_goals exact isFamily_of _ rfl
  | seReg | sneReg =>
    rw [encode, decode, fieldHi_encXyn, decodeXY0, decodeXY0, fieldX_encXyn, fieldY_encXyn, fieldN_encXyn]
    · rfl
    all_goals exact isFamily_of _ rfl
  | ldReg | orReg | andReg | xorReg | addReg | subReg | shr | subnReg | shl =>
    rw [encode, decode, fieldHi_encXyn, decode8, fieldX_encXyn, fieldY_encXyn, fieldN_encXyn]
    · rfl
    all_goals exact isFamily_of _ rfl
  | drw =>
    rw [encode, decode, fieldHi_encXyn, fieldX_encXyn, fieldY_encXyn, fieldN_encXyn]
    · rfl
    all_goals exact isFamily_of _ rfl
  | skp | sknp =>
    rw [encode, decode, fieldHi_encXkk, decodeE, fieldX_encXkk, fieldKk_encXkk]
    · rfl
    all_goals exact isFamily_of _ rfl
  | ldVxDt | ldVxK | ldDtVx | ldStVx | addI | ldF | ldB | ldMemVx | ldVxMem =>
    rw [encode, decode, fieldHi_encXkk, decodeF, fieldX_encXkk, fieldKk_encXkk]
    · rfl
    all_goals exact isFamily_of _ rfl

/-- A 16-bit table word is the word itself. -/
theorem tableWord_toNat (op : Word) : tableWord 16 op.toNat = op := by
  rw [tableWord, Nat.mod_eq_of_lt op.isLt, BitVec.ofNat_toNat, BitVec.setWidth_eq]

/-- The bytes of a table word, in memory order, are decoded as the word is. -/
theorem decodeTableWord_of_decode (nbits w : Nat) (i : Instr) (h : decode (tableWord nbits w) = .instr i) :
    decodeTableWord nbits w = some i := by
  rw [decodeTableWord, decodeBytes, wordOfBytes_bytes, h]

end Sys2Proof

namespace Sys2Proof.Machine

/-! ## Fetch (R42, R81) -/

/-- The fetched word with the second address reduced, as R42 writes it. -/
theorem State.fetchWord_eq (s : State) :
    s.fetchWord = (Memory.read s.mem s.pc.toNat).setWidth 16 <<< 8 |||
      (Memory.read s.mem ((s.pc.toNat + 1) % 4096)).setWidth 16 := by
  rw [Memory.read_mod]
  rfl

/-- Settles O6: the statement's word is the fetched word. -/
theorem runningStepRunsDecodedInstruction : Obligations.RunningStepRunsDecodedInstruction := by
  intro s i hm hd
  rw [← State.fetchWord_eq] at hd ⊢
  exact ⟨step_running s i hm hd, stepOpcode_running s hm⟩

/-- After a run of bytes is written at PC (modulo 4096), the fetch reads the first two of them, the first one high (R42,
R52). -/
theorem fetchWord_of_writeBytes (t : State) (m : Memory) (a : Nat) (bs : List Byte) (hm : Memory.wf m = true)
    (htwo : 1 < bs.length) (hlen : bs.length ≤ Config.memSize) (hmem : t.mem = Memory.writeBytes m a bs)
    (hpc : t.pc.toNat % Config.memSize = a % Config.memSize) : t.fetchWord = wordOfBytes bs[0] bs[1] := by
  have hnext : (t.pc.toNat + 1) % Config.memSize = (a + 1) % Config.memSize := Nat.ModEq.add_right 1 hpc
  rw [State.fetchWord, hmem, Memory.read_writeBytes_at m a _ 0 bs hm hlen (Nat.zero_lt_of_lt htwo) hpc,
    Memory.read_writeBytes_at m a _ 1 bs hm hlen htwo hnext]

/-- The placed word is the one that is fetched (R42). -/
theorem fetchWord_withFetchWord (s : State) (nbits w : Nat) (hm : Memory.wf s.mem = true) :
    (s.withFetchWord nbits w).fetchWord = tableWord nbits w := by
  have hlen : 2 ≤ Config.memSize := by decide
  rw [← wordOfBytes_bytes (tableWord nbits w)]
  exact fetchWord_of_writeBytes _ s.mem s.pc.toNat [_, _] hm Nat.one_lt_two hlen rfl rfl

/-- Settles O54: the placed word is fetched, and the decoder reads the instruction back from it (`decode_encode`). -/
theorem placedWordRunsNext : Obligations.PlacedWordRunsNext := by
  intro s i hm
  have hd : decode (tableWord 16 (encode i).toNat) = .instr i := by rw [tableWord_toNat, decode_encode]
  refine ⟨decodeTableWord_of_decode 16 _ i hd, step_running _ i rfl ?_⟩
  rw [fetchWord_withFetchWord s 16 _ hm, hd]

/-! ## What an instruction stores (R43, R123, R124) -/

/-- Settles O40: the bytes that Fx55 writes at the next instruction's address begin with V0 and V1
(`fetchWord_of_writeBytes`). -/
theorem storedCodeIsFetchedNext : Obligations.StoredCodeIsFetchedNext := by
  intro x s t hm hx hi h
  cases h
  have hlen : ((List.range (x.val + 1)).map fun k => s.getV (nthReg k)).length = x.val + 1 := by simp
  have hfits : x.val + 1 ≤ Config.memSize := le_trans x.isLt (by decide)
  have hpc : (wrap12 (s.pc.toNat + 2)).toNat % Config.memSize = s.indexed 0 % Config.memSize := by
    rw [wrap12_toNat, Nat.mod_mod]
    exact hi.symm
  rw [fetchWord_of_writeBytes _ s.mem (s.indexed 0) _ hm (by rw [hlen]; omega) (by rw [hlen]; exact hfits)
    rfl hpc]
  simp only [List.getElem_map, List.getElem_range]
  rfl

/-- Every instruction's memory is that of the state it stores from, with `storedBytes` bytes written from I upward. -/
theorem exec_mem (i : Instr) (s t : State) (h : exec i s = .next t) :
    ∃ bs : List Byte, bs.length = storedBytes i ∧ t.mem = Memory.writeBytes s.mem (s.indexed 0) bs := by
  cases i with
  | ldB x => cases h; exact ⟨_, rfl, rfl⟩
  | ldMemVx x => cases h; exact ⟨_, by simp [storedBytes], rfl⟩
  | ret => obtain ⟨-, rfl⟩ | ⟨j, -, rfl⟩ := execRet_cases s t h <;> exact ⟨[], rfl, rfl⟩
  | call nnn => obtain ⟨-, rfl⟩ | ⟨j, -, rfl⟩ := execCall_cases nnn s t h <;> exact ⟨[], rfl, rfl⟩
  | seByte | sneByte | seReg | sneReg | skp | sknp => cases h; exact ⟨[], rfl, s.advance.skipIf_mem _⟩
  | ldVxMem x =>
    cases h
    obtain ⟨v, hv⟩ := loadRegs_eq s.advance (x.val + 1)
    exact ⟨[], rfl, hv ▸ rfl⟩
  | _ => cases h; exact ⟨[], rfl, rfl⟩

/-- The key-wait step stores nothing (R146). -/
theorem keyWaitStep_mem (s : State) : s.keyWaitStep.mem = s.mem := by
  unfold State.keyWaitStep
  split
  · rfl
  · rfl

/-- Settles O19: the first clause by what `exec_mem` says of every instruction, the second by cases on the step. -/
theorem onlyStoredBytesChange : Obligations.OnlyStoredBytesChange := by
  refine ⟨fun i s t a h hout => ?_, fun s t hno h => ?_⟩
  · obtain ⟨bs, hlen, hmem⟩ := exec_mem i s t h
    rw [hmem]
    exact Memory.read_writeBytes_other s.mem _ a bs fun k hk => hout k (hlen ▸ hk)
  · obtain ⟨-, rfl⟩ | ⟨-, rfl⟩ | ⟨i, hm, hd, -⟩ | ⟨op, -, -, rfl⟩ := step_cases s t h
    · rfl
    · exact keyWaitStep_mem s
    · obtain hnot | hunknown := hno
      · exact absurd hm hnot
      · rw [hd] at hunknown
        cases hunknown
    · rfl

/-! ## Every step and command is answered (R41, R49, R67, R153) -/

theorem execRet_next (s : State) : ∃ t, execRet s = .next t := by
  unfold execRet
  split
  · exact ⟨_, rfl⟩
  · exact ⟨_, rfl⟩

theorem execCall_next (nnn : Addr) (s : State) : ∃ t, execCall nnn s = .next t := by
  unfold execCall
  split
  · exact ⟨_, rfl⟩
  · exact ⟨_, rfl⟩

/-- Every instruction has a next state: a fatal error is one too (R153). -/
theorem exec_next (i : Instr) (s : State) : ∃ t, exec i s = .next t := by
  cases i with
  | ret => exact execRet_next s
  | call nnn => exact execCall_next nnn s
  | _ => exact ⟨_, rfl⟩

theorem step_next (s : State) : ∃ t, step s = .next t := by
  cases hm : s.mode with
  | halted => exact ⟨_, step_halted s hm⟩
  | awaitingKey => exact ⟨_, step_awaiting s hm⟩
  | running =>
    cases hd : decode s.fetchWord with
    | instr i => exact step_running s i hm hd ▸ exec_next i s
    | unknown op => exact ⟨_, step_unknown s op hm hd⟩

theorem stepWith_next (rnd : Byte) (s : State) : ∃ t, stepWith rnd s = .next t := by
  unfold stepWith
  split
  · exact ⟨_, rfl⟩
  · exact step_next s

/-- Settles O10: `exec_next`, `step_next`, and for the commands `stepWith_next`; every other command is answered by its
definition. -/
theorem nothingEverStops : Obligations.NothingEverStops := by
  refine ⟨exec_next, step_next, fun font c s => ?_⟩
  cases c with
  | step rnd =>
    obtain ⟨t, ht⟩ := stepWith_next rnd s
    exact ⟨t, _, s.command_step font rnd t ht⟩
  | _ => exact ⟨_, _, rfl⟩

end Sys2Proof.Machine
end

section
/-! PROOF. Decoding and encoding are inverse to each other, which words are UNKNOWN, and that the opcode table says the
same (spec/30_encoding.md R60-R66). -/

namespace Sys2Proof

/-! ## The fields as numbers (R61) -/

theorem fieldHi_toNat (op : Word) : (fieldHi op).toNat = op.toNat / 4096 := by
  have := op.isLt
  rw [fieldHi, BitVec.extractLsb'_toNat, Nat.shiftRight_eq_div_pow]
  omega

theorem fieldX_val (op : Word) : (fieldX op).val = op.toNat / 256 % 16 := by
  change (op.extractLsb' 8 4).toNat = _
  rw [BitVec.extractLsb'_toNat, Nat.shiftRight_eq_div_pow]

theorem fieldY_val (op : Word) : (fieldY op).val = op.toNat / 16 % 16 := by
  change (op.extractLsb' 4 4).toNat = _
  rw [BitVec.extractLsb'_toNat, Nat.shiftRight_eq_div_pow]

theorem fieldN_toNat (op : Word) : (fieldN op).toNat = op.toNat % 16 := BitVec.extractLsb'_toNat ..

theorem fieldKk_toNat (op : Word) : (fieldKk op).toNat = op.toNat % 256 := BitVec.extractLsb'_toNat ..

theorem fieldNnn_toNat (op : Word) : (fieldNnn op).toNat = op.toNat % 4096 := BitVec.extractLsb'_toNat ..

/-! ## A word is made of its fields (R62)

Each format's encoder, given the fields of a word of its family, makes that word again: the two words have the same
fields, and the fields are all their digits. -/

theorem encNnn_fields {f op : Word} (hf : IsFamily f) (hhi : fieldHi op = fieldHi f) :
    encNnn f (fieldNnn op) = op := by
  have hh := congrArg BitVec.toNat ((fieldHi_encNnn f (fieldNnn op)).trans hhi.symm)
  have hn := congrArg BitVec.toNat (fieldNnn_encNnn f (fieldNnn op) hf)
  simp only [fieldHi_toNat, fieldNnn_toNat] at hh hn
  exact BitVec.eq_of_toNat_eq (by omega)

theorem encXkk_fields {f op : Word} {kk : Byte} (hf : IsFamily f) (hhi : fieldHi op = fieldHi f)
    (hkk : fieldKk op = kk) : encXkk f (fieldX op) kk = op := by
  have hh := congrArg BitVec.toNat ((fieldHi_encXkk f (fieldX op) kk).trans hhi.symm)
  have hx := congrArg Fin.val (fieldX_encXkk f (fieldX op) kk hf)
  have hk := congrArg BitVec.toNat ((fieldKk_encXkk f (fieldX op) kk hf).trans hkk.symm)
  simp only [fieldHi_toNat, fieldX_val, fieldKk_toNat] at hh hx hk
  exact BitVec.eq_of_toNat_eq (by omega)

theorem encXyn_fields {f op : Word} {n : Nibble} (hf : IsFamily f) (hhi : fieldHi op = fieldHi f)
    (hn : fieldN op = n) : encXyn f (fieldX op) (fieldY op) n = op := by
  have hh := congrArg BitVec.toNat ((fieldHi_encXyn f (fieldX op) (fieldY op) n).trans hhi.symm)
  have hx := congrArg Fin.val (fieldX_encXyn f (fieldX op) (fieldY op) n hf)
  have hy := congrArg Fin.val (fieldY_encXyn f (fieldX op) (fieldY op) n hf)
  have hk := congrArg BitVec.toNat ((fieldN_encXyn f (fieldX op) (fieldY op) n hf).trans hn.symm)
  simp only [fieldHi_toNat, fieldX_val, fieldY_val, fieldN_toNat] at hh hx hy hk
  exact BitVec.eq_of_toNat_eq (by omega)

/-! ## Every word is the word of what it decodes to (R64) -/

/-- The word that decodes to `d`: an instruction's encoding, or the UNKNOWN word itself. -/
def Decoded.word : Decoded → Word
  | .instr i => encode i
  | .unknown op => op

theorem decode0_word (op : Word) : (decode0 op).word = op := by
  unfold decode0
  split
  · next h => exact h.symm
  · split
    · next h => exact h.symm
    · rfl

theorem decodeXY0_word (op : Word) (i : Instr) (h : fieldN op = 0x0 → encode i = op) :
    (decodeXY0 op i).word = op := by
  unfold decodeXY0
  split
  · next hn => exact h hn
  · rfl

theorem decode8_word (op : Word) (hhi : fieldHi op = 0x8) : (decode8 op).word = op := by
  unfold decode8
  split
  case h_10 => rfl
  all_goals next hn => exact encXyn_fields (isFamily_of _ rfl) hhi hn

theorem decodeE_word (op : Word) (hhi : fieldHi op = 0xE) : (decodeE op).word = op := by
  unfold decodeE
  split
  case h_3 => rfl
  all_goals next hkk => exact encXkk_fields (isFamily_of _ rfl) hhi hkk

theorem decodeF_word (op : Word) (hhi : fieldHi op = 0xF#4) : (decodeF op).word = op := by
  unfold decodeF
  split
  case h_10 => rfl
  all_goals next hkk => exact encXkk_fields (isFamily_of _ rfl) hhi hkk

/-- Decoding loses nothing. -/
theorem decode_word (op : Word) : (decode op).word = op := by
  unfold decode
  split
  case h_1 => exact decode0_word op
  case h_2 hhi | h_3 hhi | h_11 hhi | h_12 hhi => exact encNnn_fields (isFamily_of _ rfl) hhi
  case h_4 hhi | h_5 hhi | h_7 hhi | h_8 hhi | h_13 hhi => exact encXkk_fields (isFamily_of _ rfl) hhi rfl
  case h_6 hhi | h_10 hhi => exact decodeXY0_word op _ (encXyn_fields (isFamily_of _ rfl) hhi)
  case h_9 hhi => exact decode8_word op hhi
  case h_14 hhi => exact encXyn_fields (isFamily_of _ rfl) hhi rfl
  case h_15 hhi => exact decodeE_word op hhi
  case h_16 =>
    refine decodeF_word op ?_
    have := (fieldHi op).isLt
    simp only [imp_false, BitVec.toNat_eq, BitVec.toNat_ofNat] at *
    omega

theorem word_eq_of_decode {op : Word} {d : Decoded} (h : decode op = d) : d.word = op := h ▸ decode_word op

/-! ## The UNKNOWN words of each family (R66) -/

theorem decode0_eq_unknown_iff (op : Word) :
    decode0 op = .unknown op ↔ op.toNat ≠ 0x00E0 ∧ op.toNat ≠ 0x00EE := by
  unfold decode0
  split
  · next h => simp [h]
  · split <;> simp_all [BitVec.toNat_eq]

theorem decodeXY0_eq_unknown_iff (op : Word) (i : Instr) : decodeXY0 op i = .unknown op ↔ op.toNat % 16 ≠ 0 := by
  rw [← fieldN_toNat, decodeXY0]
  split <;> simp_all [BitVec.toNat_eq]

theorem decode8_eq_unknown_iff (op : Word) :
    decode8 op = .unknown op ↔ op.toNat % 16 ∈ [0x8, 0x9, 0xA, 0xB, 0xC, 0xD, 0xF] := by
  have hn : fieldN op = BitVec.ofNat 4 (op.toNat % 16) := by
    rw [← fieldN_toNat, BitVec.ofNat_toNat, BitVec.setWidth_eq]
  have hlt : op.toNat % 16 < 16 := Nat.mod_lt _ (by decide)
  rw [decode8, hn]
  interval_cases op.toNat % 16 <;> simp

theorem decodeE_eq_unknown_iff (op : Word) : decodeE op = .unknown op ↔ op.toNat % 256 ∉ [0x9E, 0xA1] := by
  rw [← fieldKk_toNat, decodeE]
  split <;> simp_all [BitVec.toNat_eq]

theorem decodeF_eq_unknown_iff (op : Word) : decodeF op = .unknown op ↔
    op.toNat % 256 ∉ [0x07, 0x0A, 0x15, 0x18, 0x1E, 0x29, 0x33, 0x55, 0x65] := by
  rw [← fieldKk_toNat, decodeF]
  split <;> simp_all [BitVec.toNat_eq]

/-! ## The rows of the opcode table (R64) -/

/-- The word of every instruction has the fixed bits of the instruction's row. -/
theorem tableBits : (i : Instr) → Laws.TableBits.Statement i
  | .cls => Laws.TableBits.cls
  | .ret => Laws.TableBits.ret
  | .jp nnn => Laws.TableBits.jp nnn
  | .call nnn => Laws.TableBits.call nnn
  | .seByte x kk => Laws.TableBits.seByte x kk
  | .sneByte x kk => Laws.TableBits.sneByte x kk
  | .seReg x y => Laws.TableBits.seReg x y
  | .ldByte x kk => Laws.TableBits.ldByte x kk
  | .addByte x kk => Laws.TableBits.addByte x kk
  | .ldReg x y => Laws.TableBits.ldReg x y
  | .orReg x y => Laws.TableBits.orReg x y
  | .andReg x y => Laws.TableBits.andReg x y
  | .xorReg x y => Laws.TableBits.xorReg x y
  | .addReg x y => Laws.TableBits.addReg x y
  | .subReg x y => Laws.TableBits.subReg x y
  | .shr x y => Laws.TableBits.shr x y
  | .subnReg x y => Laws.TableBits.subnReg x y
  | .shl x y => Laws.TableBits.shl x y
  | .sneReg x y => Laws.TableBits.sneReg x y
  | .ldI nnn => Laws.TableBits.ldI nnn
  | .jpV0 nnn => Laws.TableBits.jpV0 nnn
  | .rnd x kk => Laws.TableBits.rnd x kk
  | .drw x y n => Laws.TableBits.drw x y n
  | .skp x => Laws.TableBits.skp x
  | .sknp x => Laws.TableBits.sknp x
  | .ldVxDt x => Laws.TableBits.ldVxDt x
  | .ldVxK x => Laws.TableBits.ldVxK x
  | .ldDtVx x => Laws.TableBits.ldDtVx x
  | .ldStVx x => Laws.TableBits.ldStVx x
  | .addI x => Laws.TableBits.addI x
  | .ldF x => Laws.TableBits.ldF x
  | .ldB x => Laws.TableBits.ldB x
  | .ldMemVx x => Laws.TableBits.ldMemVx x
  | .ldVxMem x => Laws.TableBits.ldVxMem x

/-! The bits that a row fixes in a field of the word, when it fixes all of that field. -/

section
variable {op mask pattern : Word} (h : op &&& mask = pattern)
include h

theorem fieldHi_eq_of_and (hmask : fieldHi mask = BitVec.allOnes 4) : fieldHi op = fieldHi pattern := by
  rw [← h, fieldHi, fieldHi, BitVec.extractLsb'_and, ← fieldHi, ← fieldHi, hmask, BitVec.and_allOnes]

theorem fieldN_eq_of_and (hmask : fieldN mask = BitVec.allOnes 4) : fieldN op = fieldN pattern := by
  rw [← h, fieldN, fieldN, BitVec.extractLsb'_and, ← fieldN, ← fieldN, hmask, BitVec.and_allOnes]

theorem fieldKk_eq_of_and (hmask : fieldKk mask = BitVec.allOnes 8) : fieldKk op = fieldKk pattern := by
  rw [← h, fieldKk, fieldKk, BitVec.extractLsb'_and, ← fieldKk, ← fieldKk, hmask, BitVec.and_allOnes]

end

/-- The table's rows by which bits they fix: the whole word, the family, the family and n, the family and kk. -/
theorem opcodeTable_by_mask : ∀ r ∈ opcodeTable,
    (r.mask = 0xFFFF ∧ r.pattern ∈ [0x00E0#16, 0x00EE]) ∨
    (r.mask = 0xF000 ∧ r.pattern ∈
      [0x1000#16, 0x2000, 0x3000, 0x4000, 0x6000, 0x7000, 0xA000, 0xB000, 0xC000, 0xD000]) ∨
    (r.mask = 0xF00F ∧ r.pattern ∈
      [0x5000#16, 0x8000, 0x8001, 0x8002, 0x8003, 0x8004, 0x8005, 0x8006, 0x8007, 0x800E, 0x9000]) ∨
    (r.mask = 0xF0FF ∧ r.pattern ∈
      [0xE09E#16, 0xE0A1, 0xF007, 0xF00A, 0xF015, 0xF018, 0xF01E, 0xF029, 0xF033, 0xF055, 0xF065]) := by
  decide

/-- A word that a row covers decodes to that row's instruction: the fields that the row fixes choose the arm. -/
theorem exists_instr_of_covers (r : TableRow) (op : Word) (hr : r ∈ opcodeTable) (h : r.covers op = true) :
    ∃ i, decode op = .instr i ∧ i.tableRow = r := by
  obtain ⟨mask, pattern⟩ := r
  have hbits : op &&& mask = pattern := eq_of_beq h
  obtain ⟨rfl, hp⟩ | ⟨rfl, hp⟩ | ⟨rfl, hp⟩ | ⟨rfl, hp⟩ := opcodeTable_by_mask _ hr
  · obtain rfl : op = pattern := BitVec.and_allOnes.symm.trans hbits
    fin_cases hp <;> exact ⟨_, rfl, rfl⟩
  · rw [decode, fieldHi_eq_of_and hbits rfl]
    fin_cases hp <;> exact ⟨_, rfl, rfl⟩
  · rw [decode, fieldHi_eq_of_and hbits rfl, decode8, decodeXY0, decodeXY0, fieldN_eq_of_and hbits rfl]
    fin_cases hp <;> exact ⟨_, rfl, rfl⟩
  · rw [decode, fieldHi_eq_of_and hbits rfl, decodeE, decodeF, fieldKk_eq_of_and hbits rfl]
    fin_cases hp <;> exact ⟨_, rfl, rfl⟩

/-! ## The obligations -/

/-- Settles O1: the decoder reads back the word (`decode_encode`), and the two bytes are put together to it
(`wordOfBytes_bytes`). -/
theorem decodeAfterEncode : Obligations.DecodeAfterEncode := by
  intro i rest
  refine ⟨decode_encode i, ?_⟩
  rw [encodeBytes, List.cons_append, List.cons_append, List.nil_append, decodeBytes, wordOfBytes_bytes, decode_encode]

/-- Settles O2: the word of what `op` decodes to is `op` (`decode_word`). -/
theorem encodeAfterDecode : Obligations.EncodeAfterDecode := fun _ _ h => word_eq_of_decode h

/-- Settles O3: in each of the sixteen families, the words that the family's own decoder answers UNKNOWN. -/
theorem unknownWordsByFamily : Obligations.UnknownWordsByFamily := by
  intro op
  have hhi : fieldHi op = BitVec.ofNat 4 (op.toNat / 4096) := by
    rw [← fieldHi_toNat, BitVec.ofNat_toNat, BitVec.setWidth_eq]
  have hlt : op.toNat / 4096 < 16 := fieldHi_toNat op ▸ (fieldHi op).isLt
  rw [decode, hhi]
  interval_cases op.toNat / 4096 <;>
    simp [decode0_eq_unknown_iff, decodeXY0_eq_unknown_iff, decode8_eq_unknown_iff, decodeE_eq_unknown_iff,
      decodeF_eq_unknown_iff]

/-- Settles O4: a covered word decodes to the row's instruction (`exists_instr_of_covers`), and an instruction's own row
covers the word that decodes to it (`tableBits`). -/
theorem tableRowsDecideDecoding : Obligations.TableRowsDecideDecoding := by
  refine fun op => ⟨fun r hr h => exists_instr_of_covers r op hr h, fun hnone => ?_⟩
  cases hd : decode op with
  | instr i =>
    obtain ⟨hcovers, hrow⟩ := tableBits i
    rw [encodeAfterDecode op i hd, hnone _ hrow] at hcovers
    cases hcovers
  | unknown w => exact congrArg Decoded.unknown (word_eq_of_decode hd)

/-- Settles O5, by evaluation. -/
theorem sampleWordsDecode : Obligations.SampleWordsDecode := by
  unfold Obligations.SampleWordsDecode
  decide

end Sys2Proof
end

section
/-! PROOF. The step cycle (spec/40_step_cycle.md): an UNKNOWN word is skipped (R84), HALTED is sticky (R85), and only
Cxkk reads the random byte (R86). -/

namespace Sys2Proof.Machine

/-! ## The step with the host's byte (R86, R113) -/

/-- A RUNNING step of Cxkk reads the host's byte. -/
theorem stepWith_rnd (rnd : Byte) (s : State) (x : Reg) (kk : Byte) (hm : s.mode = .running)
    (hd : decode s.fetchWord = .instr (.rnd x kk)) : stepWith rnd s = .next (rndEffect rnd x kk s) := by
  rw [stepWith, hm, hd]

/-- Every other step is the model's own, whatever the host's byte. -/
theorem stepWith_eq_step (rnd : Byte) (s : State)
    (h : ¬ (s.mode = .running ∧ ∃ x kk, decode s.fetchWord = .instr (.rnd x kk))) : stepWith rnd s = step s := by
  unfold stepWith
  split
  · next x kk hm hd => exact absurd ⟨hm, x, kk, hd⟩ h
  · rfl

/-- A halted step is no Cxkk, so no byte of the host's moves it (R85). -/
theorem stepWith_halted (rnd : Byte) (s : State) (hm : s.mode = .halted) : stepWith rnd s = .next s := by
  have hnot : ¬ s.mode = .running := by rw [hm]; decide
  rw [stepWith_eq_step rnd s fun h => hnot h.1, step_halted s hm]

/-! ## MODE and HALT_REASON under the host's commands (R30, R32, R85) -/

@[simp] theorem State.tick60Hz_mode (s : State) : s.tick60Hz.mode = s.mode := by
  unfold State.tick60Hz
  split
  · rfl
  · rfl

@[simp] theorem State.tick60Hz_haltReason (s : State) : s.tick60Hz.haltReason = s.haltReason := by
  unfold State.tick60Hz
  split
  · rfl
  · rfl

@[simp] theorem State.loadRom_mode (s : State) (bytes : List Byte) : (s.loadRom bytes).2.mode = s.mode := by
  unfold State.loadRom
  split
  · rfl
  · rfl

@[simp] theorem State.loadRom_haltReason (s : State) (bytes : List Byte) :
    (s.loadRom bytes).2.haltReason = s.haltReason := by
  unfold State.loadRom
  split
  · rfl
  · rfl

/-- A HALTED core stays HALTED, for the same reason, under every command but `initialize`. -/
theorem State.command_halted (font : Vector Byte Config.fontSize) (c : Command) (s : State) (b : Block) (r : Reply)
    (hm : s.mode = .halted) (hc : c ≠ .init) (h : s.command font c = .next (b, r)) :
    ∃ t, b = .ready t ∧ t.mode = .halted ∧ t.haltReason = s.haltReason := by
  cases c with
  | init => exact absurd rfl hc
  | loadRom bytes => cases h; exact ⟨_, rfl, (s.loadRom_mode bytes).trans hm, s.loadRom_haltReason bytes⟩
  | step rnd =>
    rw [s.command_step font rnd s (stepWith_halted rnd s hm)] at h
    cases h
    exact ⟨s, rfl, hm, rfl⟩
  | tick60Hz => cases h; exact ⟨_, rfl, s.tick60Hz_mode.trans hm, s.tick60Hz_haltReason⟩
  | setKeys keys => cases h; exact ⟨_, rfl, hm, rfl⟩
  | getDisplay | isSoundActive | awaitingKey => cases h; exact ⟨s, rfl, hm, rfl⟩

/-! ## The obligations -/

/-- Settles O8: the step by `stepWith_halted` and `step_halted`, the commands by `State.command_halted`; `initialize`
answers the RUNNING state of the reset. -/
theorem haltIsSticky : Obligations.HaltIsSticky := by
  intro s hm
  have hopcode : stepOpcode s = none := stepOpcode_not_running s (by rw [hm]; decide)
  exact ⟨fun rnd => stepWith_halted rnd s hm, step_halted s hm, stepResult_of_halted hm, hopcode,
    fun font c b r hc h => s.command_halted font c b r hm hc h, fun font => ⟨s.reinitialise font, rfl, rfl⟩⟩

/-- Settles O14: Cxkk by `stepWith_rnd`, whose effect the model's step has with its next free value; every other step
by `stepWith_eq_step`, once for each byte. -/
theorem randomByteReadOnlyByRnd : Obligations.RandomByteReadOnlyByRnd := by
  refine fun s rnd rnd' => ⟨fun x kk hm hd => ⟨stepWith_rnd rnd s x kk hm hd, ?_⟩, fun hnot => ?_⟩
  · rw [step_running s (.rnd x kk) hm hd]
    rfl
  · have hstep (b : Byte) : stepWith b s = step s := stepWith_eq_step b s hnot
    exact ⟨(hstep rnd).trans (hstep rnd').symm, hstep rnd⟩

/-- Settles O7: the step is the pre-advance alone (`step_unknown`), and the reported word is the fetched one, since an
UNKNOWN word decodes to itself (`word_eq_of_decode`). -/
theorem unknownWordIsSkipped : Obligations.UnknownWordIsSkipped := by
  intro s op hm hd
  obtain rfl : op = s.fetchWord := word_eq_of_decode hd
  exact ⟨step_unknown s _ hm hd, stepResult_of_unknown (t := s.advance) hm hm hd, stepOpcode_running s hm⟩

end Sys2Proof.Machine
end

section
/-! PROOF. Control transfer and skips (spec/41_control.md): the encoding and the exact next state of each instruction
that jumps, calls, returns or skips on a comparison (R90-R97). -/

namespace Sys2Proof

/-- Format XY0 with its low nibble 0: the two register fields alone (R62). -/
theorem encXyn_zero (f : Word) (x y : Reg) : encXyn f x y 0 = f ||| regBits x <<< 8 ||| regBits y <<< 4 :=
  BitVec.or_zero

end Sys2Proof

namespace Sys2Proof.Machine

/-- A 12-bit address is not changed by the reduction of PC (R25). -/
theorem wrap12_addr (nnn : Addr) : wrap12 nnn.toNat = nnn.setWidth 16 :=
  (wrap12_of_lt nnn.toNat nnn.isLt).trans (BitVec.ofNat_toNat 16 nnn)

/-! ## Return, jump and call (R90, R91, R92, R97) -/

/-- A return on an empty stack is the fatal error StackUnderflow (R90). -/
theorem exec_ret_of_empty (s : State) (h : s.sp.val = 0) : exec .ret s = .next (s.raiseFatal .stackUnderflow) := by
  rw [exec, execRet, State.pop_empty s.advance h]

/-- A jump leaves PC at `nnn`; the pre-advance is overwritten (R91). -/
theorem exec_jp (nnn : Addr) (s : State) : exec (.jp nnn) s = .next { s with pc := nnn.setWidth 16 } := by
  rw [← wrap12_addr]
  rfl

/-- A call with room writes `p + 2` to the free entry `j = SP`, and SP rises (R92). -/
theorem exec_call_of_free (nnn : Addr) (s : State) (j : Fin Config.stackDepth) (h : s.sp = j.castSucc) :
    exec (.call nnn) s = .next { s with
      stack := s.stack.set j.val (wrap12 (s.pc.toNat + 2)), sp := j.succ, pc := nnn.setWidth 16 } := by
  rw [exec, execCall, State.push_room s.advance _ j h, ← wrap12_addr]
  rfl

/-- A call on a full stack is the fatal error StackOverflow (R92). -/
theorem exec_call_of_full (nnn : Addr) (s : State) (h : s.sp.val = Config.stackDepth) :
    exec (.call nnn) s = .next (s.raiseFatal .stackOverflow) := by
  rw [exec, execCall, State.push_full s.advance _ h]

/-! ## Skips on a comparison (R93-R96, R98) -/

/-- A skip on equality leaves PC at `p + 4` when the bytes are equal, at `p + 2` when not. -/
theorem State.advance_skipIf_beq (s : State) (a b : Byte) :
    s.advance.skipIf (a == b) = { s with pc := wrap12 (s.pc.toNat + if a = b then 4 else 2) } := by
  simp only [State.advance_skipIf, beq_iff_eq]

/-- A skip on inequality leaves PC at `p + 2` when the bytes are equal, at `p + 4` when not. -/
theorem State.advance_skipIf_bne (s : State) (a b : Byte) :
    s.advance.skipIf (a != b) = { s with pc := wrap12 (s.pc.toNat + if a = b then 2 else 4) } := by
  simp only [State.advance_skipIf, bne_iff_ne, ite_not]

/-! ## The obligations -/

/-- Settles O22: the entry by `exec_ret_of_entry`, the empty stack by `exec_ret_of_empty`. -/
theorem returnPopsOrHalts : Obligations.ReturnPopsOrHalts :=
  ⟨decode_encode .ret, exec_ret_of_entry, fun s h => exec_ret_of_empty s (congrArg Fin.val h)⟩

/-- Settles O23. -/
theorem jumpSetsPc : Obligations.JumpSetsPc := fun nnn s => ⟨decode_encode (.jp nnn), exec_jp nnn s⟩

/-- Settles O24: the free entry by `exec_call_of_free`, the full stack by `exec_call_of_full`. -/
theorem callPushesOrHalts : Obligations.CallPushesOrHalts :=
  fun nnn s => ⟨decode_encode (.call nnn), exec_call_of_free nnn s, exec_call_of_full nnn s⟩

/-- Settles O26: each meaning is the pre-advance and a skip on a comparison (`State.advance_skipIf_beq`,
`State.advance_skipIf_bne`). -/
theorem skipsOnImmediate : Obligations.SkipsOnImmediate := by
  refine fun x kk s => ⟨decode_encode (.seByte x kk), decode_encode (.sneByte x kk), ?_, ?_⟩
  · exact congrArg Host.Outcome.next (s.advance_skipIf_beq (s.getV x) kk)
  · exact congrArg Host.Outcome.next (s.advance_skipIf_bne (s.getV x) kk)

/-- Settles O27: the words are the encoder's (`encXyn_zero`), the meanings are skips as in O26, and the UNKNOWN words are
those that R66 lists for the two families (`unknownWordsByFamily`). -/
theorem skipsOnRegisters : Obligations.SkipsOnRegisters := by
  refine ⟨fun x y s => ⟨?_, ?_, ?_, ?_⟩, fun op hfamily hn => ?_⟩
  · exact encXyn_zero 0x5000 x y ▸ decode_encode (.seReg x y)
  · exact encXyn_zero 0x9000 x y ▸ decode_encode (.sneReg x y)
  · exact congrArg Host.Outcome.next (s.advance_skipIf_beq (s.getV x) (s.getV y))
  · exact congrArg Host.Outcome.next (s.advance_skipIf_bne (s.getV x) (s.getV y))
  · exact (unknownWordsByFamily op).2 (.inr (.inl ⟨hfamily, hn⟩))

/-- Settles O28: the jump overwrites the pre-advance, and reduces the sum modulo 4096. -/
theorem jumpPlusV0 : Obligations.JumpPlusV0 := fun nnn _ => ⟨decode_encode (.jpV0 nnn), rfl⟩

end Sys2Proof.Machine
end

section
/-! PROOF. Register loads, the 8-bit ALU and the random byte (spec/42_alu.md): the encoding and the exact next state of
each instruction that computes into V[x] (R100-R114). -/

namespace Sys2Proof.Machine

/-! ## The 8-bit results as numbers (R110, R112, R114) -/

theorem sum8_toNat (a b : Byte) : (sum8 a b).toNat = (a.toNat + b.toNat) % 256 := by
  rw [sum8, BitVec.toNat_ofNat]
  exact Nat.mod_mod _ _

theorem diff8_toNat (a b : Byte) : (diff8 a b).toNat = (a.toNat + 256 - b.toNat) % 256 := by
  rw [diff8, BitVec.toNat_ofInt]
  have := b.isLt
  omega

theorem shiftRight_one_toNat (a : Byte) : (a >>> 1).toNat = a.toNat / 2 := by
  rw [BitVec.toNat_ushiftRight, Nat.shiftRight_one]

theorem shiftLeft_one_toNat (a : Byte) : (a <<< 1).toNat = a.toNat * 2 % 256 := by
  rw [BitVec.toNat_shiftLeft, Nat.shiftLeft_eq]

/-! ## The flags (R104, R108-R112) -/

theorem flagByte_decide (p : Prop) [Decidable p] : flagByte (decide p) = if p then 1 else 0 := by
  simp only [flagByte, decide_eq_true_eq]

/-- The flag of 8xy6 is the bit that leaves at the right. -/
theorem shrFlag_toNat (a : Byte) : (shrFlag a).toNat = a.toNat % 2 := by
  rw [shrFlag, BitVec.toNat_and]
  exact Nat.and_one_is_mod _

/-- The flag of 8xyE is the bit that leaves at the left: a byte shifted right by 7 has no other bit. -/
theorem shlFlag_toNat (a : Byte) : (shlFlag a).toNat = a.toNat / 128 := by
  have hbit : (a >>> 7).toNat = a.toNat / 128 := by rw [BitVec.toNat_ushiftRight, Nat.shiftRight_eq_div_pow]
  have hflag : (shlFlag a).toNat = (a >>> 7).toNat % 2 := shrFlag_toNat (a >>> 7)
  have := a.isLt
  omega

/-! ## The two shapes of a meaning: one write, or the flag and then the result (R103) -/

/-- An instruction without a flag: V[x] and PC, and nothing else. -/
theorem State.advance_setV (s : State) (x : Reg) (b : Byte) :
    s.advance.setV x b =
      { s with v := s.v.set x.val b, pc := BitVec.ofNat 16 ((s.pc.toNat + 2) % 4096) } := rfl

/-- An instruction with a flag, the result given as a number: V[x] holds the result, VF the flag unless x = 0xF, the
other registers are as before, and beside the registers only PC changes. -/
theorem State.advance_setFlagThen (s : State) (x : Reg) {flag f result : Byte} {n : Nat} (hflag : flag = f)
    (hresult : result.toNat = n) :
    let t := s.advance.setFlagThen x flag result
    (t.getV x).toNat = n ∧ (x ≠ 15 → t.getV 15 = f) ∧ (∀ r : Reg, r ≠ x → r ≠ 15 → t.getV r = s.getV r) ∧
      t = { s with v := t.v, pc := BitVec.ofNat 16 ((s.pc.toNat + 2) % 4096) } := by
  refine ⟨?_, fun hx => ?_, fun r hx hvf => ?_, rfl⟩
  · rw [State.getV_setFlagThen, if_pos rfl, hresult]
  · rw [State.getV_setFlagThen, if_neg hx.symm, if_pos rfl, hflag]
  · rw [State.getV_setFlagThen, if_neg hx, if_neg hvf, State.advance_getV]

/-! ## The obligations -/

/-- Settles O29: each meaning is one register write (`State.advance_setV`). -/
theorem loadsAndImmediateAdd : Obligations.LoadsAndImmediateAdd := fun x y kk s =>
  ⟨decode_encode (.ldByte x kk), decode_encode (.addByte x kk), decode_encode (.ldReg x y),
    congrArg Host.Outcome.next (s.advance_setV x kk),
    congrArg Host.Outcome.next (s.advance_setV x (sum8 (s.getV x) kk)),
    congrArg Host.Outcome.next (s.advance_setV x (s.getV y))⟩

/-- Settles O30: each meaning is one register write (`State.advance_setV`). -/
theorem bitwiseOperations : Obligations.BitwiseOperations := fun x y s =>
  ⟨decode_encode (.orReg x y), decode_encode (.andReg x y), decode_encode (.xorReg x y),
    congrArg Host.Outcome.next (s.advance_setV x (s.getV x ||| s.getV y)),
    congrArg Host.Outcome.next (s.advance_setV x (s.getV x &&& s.getV y)),
    congrArg Host.Outcome.next (s.advance_setV x (s.getV x ^^^ s.getV y))⟩

/-- Settles O31: the carry and the sum, written as `State.advance_setFlagThen` says. -/
theorem addSetsCarryThenSum : Obligations.AddSetsCarryThenSum := fun x y s =>
  ⟨decode_encode (.addReg x y), _, rfl, s.advance_setFlagThen x (flagByte_decide _) (sum8_toNat _ _)⟩

/-- Settles O32: NOT borrow and the difference, written as `State.advance_setFlagThen` says; 8xy7 exchanges the
operands of 8xy5. -/
theorem subtractsSetNotBorrowThenDifference : Obligations.SubtractsSetNotBorrowThenDifference := fun x y s =>
  ⟨decode_encode (.subReg x y), decode_encode (.subnReg x y),
    ⟨_, rfl, s.advance_setFlagThen x (flagByte_decide _) (diff8_toNat (s.getV x) (s.getV y))⟩,
    ⟨_, rfl, s.advance_setFlagThen x (flagByte_decide _) (diff8_toNat (s.getV y) (s.getV x))⟩⟩

/-- Settles O33: the bit shifted out and the shifted value, written as `State.advance_setFlagThen` says; y is decoded
and not read. -/
theorem shiftsSetBitShiftedOut : Obligations.ShiftsSetBitShiftedOut := by
  refine fun x y s => ⟨decode_encode (.shr x y), decode_encode (.shl x y), ⟨_, rfl, ?_⟩, ⟨_, rfl, ?_⟩⟩
  · obtain ⟨hresult, hflag, hframe⟩ :=
      s.advance_setFlagThen x (Eq.refl (shrFlag (s.getV x))) (shiftRight_one_toNat (s.getV x))
    exact ⟨hresult, fun hx => (congrArg BitVec.toNat (hflag hx)).trans (shrFlag_toNat _), hframe⟩
  · obtain ⟨hresult, hflag, hframe⟩ :=
      s.advance_setFlagThen x (Eq.refl (shlFlag (s.getV x))) (shiftLeft_one_toNat (s.getV x))
    exact ⟨hresult, fun hx => (congrArg BitVec.toNat (hflag hx)).trans (shlFlag_toNat _), hframe⟩

/-- Settles O34: the effect is one register write (`State.advance_setV`), and the model's step counts the draw. -/
theorem randomByteIsMasked : Obligations.RandomByteIsMasked := fun x kk rnd s =>
  ⟨decode_encode (.rnd x kk),
    congrArg Host.Outcome.next (congrArg State.countDraw (s.advance_setV x (Config.randomByte s.draws &&& kk))),
    s.advance_setV x (rnd &&& kk)⟩

end Sys2Proof.Machine
end

section
/-! PROOF. The index register and memory transfer (spec/43_index_memory.md): the encoding and the exact next state of each
instruction that writes I, stores from registers or loads into them (R120-R126). -/

namespace Sys2Proof

/-- A word with its function byte written beside its family, as the rules of family F give it, is the encoder's (R62). -/
theorem decode_of_encXkk (i : Instr) {f w : Word} {x : Reg} {kk : Byte} (h : encode i = encXkk f x kk)
    (hw : w = f ||| kk.setWidth 16) : decode (w ||| BitVec.ofNat 16 x.val <<< 8) = .instr i := by
  have hword : w ||| BitVec.ofNat 16 x.val <<< 8 = encXkk f x kk := by
    rw [hw, encXkk, regBits, BitVec.or_assoc, BitVec.or_assoc, BitVec.or_comm (kk.setWidth 16)]
  rw [hword, ← h]
  exact decode_encode i

end Sys2Proof

namespace Sys2Proof.Machine

/-! ## The shapes of a next state (R126) -/

/-- A write of I: I and PC, and nothing else. -/
theorem State.advance_setI (s : State) (w : Word) :
    s.advance.setI w = { s with i := w, pc := BitVec.ofNat 16 ((s.pc.toNat + 2) % 4096) } := rfl

/-- A store: memory and PC, and nothing else. -/
theorem State.advance_setMem (s : State) (m : Memory) :
    s.advance.setMem m = { s with mem := m, pc := BitVec.ofNat 16 ((s.pc.toNat + 2) % 4096) } := rfl

/-- A run of loads: registers and PC, and nothing else. -/
theorem loadRegs_advance (s : State) (n : Nat) :
    loadRegs s.advance n = { s with
      v := (loadRegs s.advance n).v, pc := BitVec.ofNat 16 ((s.pc.toNat + 2) % 4096) } := by
  obtain ⟨v, hv⟩ := loadRegs_eq s.advance n
  rw [hv]
  rfl

/-! ## The decimal digits of a byte (R123) -/

theorem bcdHundreds_toNat (b : Byte) : (bcdHundreds b).toNat = b.toNat / 100 := by
  rw [bcdHundreds, BitVec.toNat_ofNat]
  have := b.isLt
  omega

theorem bcdTens_toNat (b : Byte) : (bcdTens b).toNat = b.toNat / 10 % 10 := by
  rw [bcdTens, BitVec.toNat_ofNat]
  omega

theorem bcdOnes_toNat (b : Byte) : (bcdOnes b).toNat = b.toNat % 10 := by
  rw [bcdOnes, BitVec.toNat_ofNat]
  omega

/-! ## The bytes stored (R123, R124) -/

/-- The k-th digit is read back at I + k. -/
theorem read_storeBcd (s : State) (b : Byte) (hm : Memory.wf s.mem = true) (k : Nat) (hk : k < 3) :
    Memory.read (storeBcd s b) ((s.i.toNat + k) % 4096) = [bcdHundreds b, bcdTens b, bcdOnes b][k] :=
  Memory.read_writeBytes_at s.mem (s.indexed 0) _ k [_, _, _] hm (by decide : 3 ≤ 4096) hk (Nat.mod_mod _ _)

/-- Each V[k] of the first n registers is read back at I + k. -/
theorem read_storeRegs (s : State) (n : Nat) (hn : n ≤ 16) (hm : Memory.wf s.mem = true) (k : Reg) (hk : k.val < n) :
    Memory.read (storeRegs s n) ((s.i.toNat + k.val) % 4096) = s.getV k := by
  have hlen : ((List.range n).map fun i => s.getV (nthReg i)).length = n := by simp
  have hfits : n ≤ Config.memSize := le_trans hn (by decide)
  have hreg : nthReg k.val = k := Fin.ext (nthReg_val k.val k.isLt)
  have hread := Memory.read_writeBytes_at s.mem (s.indexed 0) _ k.val _ hm (hlen.symm ▸ hfits) (hlen.symm ▸ hk)
    (Nat.mod_mod (s.indexed 0 + k.val) Config.memSize)
  rw [List.getElem_map, List.getElem_range, hreg] at hread
  exact hread

/-- A byte outside the addresses of the run is not changed. -/
theorem read_storeRegs_other (s : State) (n : Nat) (hn : n ≤ 16) (a : Nat) (ha : a < 4096)
    (h : ∀ k : Reg, k.val < n → a ≠ (s.i.toNat + k.val) % 4096) :
    Memory.read (storeRegs s n) a = Memory.read s.mem a := by
  refine Memory.read_writeBytes_other s.mem _ a _ fun k hk => ?_
  rw [List.length_map, List.length_range] at hk
  rw [Nat.mod_eq_of_lt ha]
  exact h ⟨k, hk.trans_le hn⟩ hk

/-! ## The obligations -/

/-- Settles O36: the digits by `read_storeBcd`, the other bytes because a run of three writes leaves them alone. -/
theorem bcdDigitsAreStored : Obligations.BcdDigitsAreStored := by
  refine fun x s hm => ⟨decode_of_encXkk (.ldB x) rfl rfl, _, rfl, ?_, ?_, ?_, fun a ha h0 h1 h2 => ?_,
    s.advance_setMem _⟩
  · exact (congrArg BitVec.toNat (read_storeBcd s _ hm 0 (by decide))).trans (bcdHundreds_toNat _)
  · exact (congrArg BitVec.toNat (read_storeBcd s _ hm 1 (by decide))).trans (bcdTens_toNat _)
  · exact (congrArg BitVec.toNat (read_storeBcd s _ hm 2 (by decide))).trans (bcdOnes_toNat _)
  · refine Memory.read_writeBytes_other s.mem _ a _ fun k hk => ?_
    rw [Nat.mod_eq_of_lt ha]
    match k, hk with
    | 0, _ => exact h0
    | 1, _ => exact h1
    | 2, _ => exact h2

/-- Settles O37: `k ≤ x` says that V[k] is one of the x + 1 registers stored. -/
theorem registersAreStored : Obligations.RegistersAreStored := fun x s hm =>
  ⟨decode_of_encXkk (.ldMemVx x) rfl rfl, _, rfl,
    fun k hk => read_storeRegs s (x.val + 1) x.isLt hm k (Nat.lt_succ_of_le hk),
    fun a ha h => read_storeRegs_other s (x.val + 1) x.isLt a ha fun k hk => h k (Nat.le_of_lt_succ hk),
    s.advance_setMem _⟩

/-- Settles O38: `getV_loadRegs` says what each register holds after the x + 1 loads. -/
theorem registersAreLoaded : Obligations.RegistersAreLoaded := by
  refine fun x s => ⟨decode_of_encXkk (.ldVxMem x) rfl rfl, _, rfl, fun k hk => ?_, fun k hk => ?_,
    loadRegs_advance s _⟩
  · rw [getV_loadRegs s.advance _ x.isLt, if_pos (Nat.lt_succ_of_le hk), Memory.read_mod]
    rfl
  · rw [getV_loadRegs s.advance _ x.isLt, if_neg (Nat.not_lt_of_le hk), State.advance_getV]

/-- Settles O39: what Fx65 reads (`registersAreLoaded`) are the bytes that Fx55 stored (`registersAreStored`), since the
store leaves I as it was. -/
theorem loadUndoesStore : Obligations.LoadUndoesStore := by
  intro x s t t' hm hstore hmem hi
  obtain ⟨-, t₀, hexec, hstored, -, hframe⟩ := registersAreStored x s hm
  obtain rfl : t₀ = t := Host.Outcome.next.inj (hexec.symm.trans hstore)
  obtain ⟨-, u, hload, hloaded, hkept, -⟩ := registersAreLoaded x t'
  refine ⟨u, hload, fun k hk => ?_, hkept⟩
  have hkeepsI : t₀.i = s.i := by rw [hframe]
  rw [hloaded k hk, hmem, hi, hkeepsI, hstored k hk]

/-- Settles O35: each meaning is one write of I (`State.advance_setI`). -/
theorem indexRegisterWrites : Obligations.IndexRegisterWrites := fun nnn x s =>
  ⟨decode_encode (.ldI nnn), decode_of_encXkk (.addI x) rfl rfl, decode_of_encXkk (.ldF x) rfl rfl,
    congrArg Host.Outcome.next (s.advance_setI (nnn.setWidth 16)),
    congrArg Host.Outcome.next (s.advance_setI (wrap12 (s.i.toNat + (s.getV x).toNat))),
    congrArg Host.Outcome.next (s.advance_setI (BitVec.ofNat 16 (glyphAddress (s.getV x))))⟩

end Sys2Proof.Machine
end

section
/-! PROOF. The display (spec/44_display.md): clearing it, and the sprite draw as one flip of each cell under a set bit
of the sprite (R130-R133). -/

namespace Sys2Proof.Machine

/-! ## The draw as a list of flips (R132) -/

/-- A cell of the display: its row and its column. -/
abbrev Display.Cell := Fin Config.displayH × Fin Config.displayW

/-- What the draw does at a set bit of the sprite: note a collision and flip the cell (R132). -/
def Drawing.toggle (d : Drawing) (p : Display.Cell) : Drawing :=
  ⟨d.fb.flip p.1 p.2, d.collision || d.fb.pixel p.1 p.2⟩

/-- The cells under the set bits of one sprite byte, left to right. -/
def rowCells (cx cy row : Nat) (byte : Byte) : List Display.Cell :=
  ((List.range 8).filter (spriteBit byte)).map fun col => (wrapRow (cy + row), wrapCol (cx + col))

/-- The cells under the set bits of a sprite, in the order in which the draw meets them. -/
def spriteCells (m : Memory) (base cx cy n : Nat) : List Display.Cell :=
  (List.range n).flatMap fun row => rowCells cx cy row (Memory.read m (base + row))

theorem drawRow_eq (cx cy row : Nat) (byte : Byte) (d : Drawing) :
    drawRow cx cy row byte d = (rowCells cx cy row byte).foldl Drawing.toggle d := by
  rw [rowCells, List.foldl_map, List.foldl_filter]
  rfl

theorem drawSprite_eq (m : Memory) (base cx cy n : Nat) (fb : Display) :
    drawSprite m base cx cy n fb = (spriteCells m base cx cy n).foldl Drawing.toggle ⟨fb, false⟩ := by
  simp only [drawSprite, spriteCells, List.foldl_flatMap, drawRow_eq]

/-- Flipping distinct cells XORs the display with the set of these cells. -/
theorem pixel_foldl_toggle (l : List Display.Cell) (hl : l.Nodup) (d : Drawing) (r : Fin Config.displayH)
    (c : Fin Config.displayW) :
    (l.foldl Drawing.toggle d).fb.pixel r c = (d.fb.pixel r c ^^ decide ((r, c) ∈ l)) := by
  induction l generalizing d with
  | nil => simp
  | cons p l ih =>
    obtain ⟨hp, hl⟩ := List.nodup_cons.1 hl
    rw [List.foldl_cons, ih hl, Drawing.toggle, Display.pixel_flip]
    by_cases h : (r, c) = p
    · subst h
      simp [hp]
    · have hrc : ¬ (r = p.1 ∧ c = p.2) := fun e => h (Prod.ext e.1 e.2)
      simp [h, hrc]

/-- Flipping distinct cells meets a collision exactly when one of them was set before the first flip: an earlier flip
changes another cell. -/
theorem collision_foldl_toggle (l : List Display.Cell) (hl : l.Nodup) (d : Drawing) :
    (l.foldl Drawing.toggle d).collision = true ↔
      d.collision = true ∨ ∃ p ∈ l, d.fb.pixel p.1 p.2 = true := by
  induction l generalizing d with
  | nil => simp
  | cons p l ih =>
    obtain ⟨hp, hl⟩ := List.nodup_cons.1 hl
    have hkept : ∀ q ∈ l, (d.toggle p).fb.pixel q.1 q.2 = d.fb.pixel q.1 q.2 := fun q hq => by
      rw [Drawing.toggle, Display.pixel_flip, if_neg]
      rintro ⟨hr, hc⟩
      exact hp (Prod.ext hr hc ▸ hq)
    rw [List.foldl_cons, ih hl, List.exists_mem_cons_iff, ← or_assoc]
    refine or_congr (by simp [Drawing.toggle]) (exists_congr fun q => and_congr_right fun hq => by rw [hkept q hq])

/-! ## Where the cells are (R130) -/

/-- A display row is `row` below `cy`, counted modulo 32, for one `row` only. -/
theorem wrapRow_eq_iff (cy row : Nat) (h : row < 32) (r : Fin Config.displayH) :
    wrapRow (cy + row) = r ↔ (r.val + 32 - cy % 32) % 32 = row := by
  have hr : r.val < 32 := r.isLt
  rw [Fin.ext_iff, wrapRow]
  simp only [Config.displayH]
  omega

/-- A display column is `col` right of `cx`, counted modulo 64, for one `col` only. -/
theorem wrapCol_eq_iff (cx col : Nat) (h : col < 64) (c : Fin Config.displayW) :
    wrapCol (cx + col) = c ↔ (c.val + 64 - cx % 64) % 64 = col := by
  have hc : c.val < 64 := c.isLt
  rw [Fin.ext_iff, wrapCol]
  simp only [Config.displayW]
  omega

theorem wrapRow_inj (cy i j : Nat) (hi : i < 32) (hj : j < 32) (h : wrapRow (cy + i) = wrapRow (cy + j)) : i = j :=
  ((wrapRow_eq_iff cy i hi _).1 h).symm.trans ((wrapRow_eq_iff cy j hj _).1 rfl)

theorem wrapCol_inj (cx i j : Nat) (hi : i < 64) (hj : j < 64) (h : wrapCol (cx + i) = wrapCol (cx + j)) : i = j :=
  ((wrapCol_eq_iff cx i hi _).1 h).symm.trans ((wrapCol_eq_iff cx j hj _).1 rfl)

theorem mem_rowCells (cx cy row : Nat) (byte : Byte) (p : Display.Cell) :
    p ∈ rowCells cx cy row byte ↔
      ∃ col < 8, spriteBit byte col = true ∧ wrapRow (cy + row) = p.1 ∧ wrapCol (cx + col) = p.2 := by
  simp [rowCells, Prod.ext_iff, and_assoc]

theorem mem_spriteCells (m : Memory) (base cx cy n : Nat) (p : Display.Cell) :
    p ∈ spriteCells m base cx cy n ↔ ∃ row < n, ∃ col < 8,
      spriteBit (Memory.read m (base + row)) col = true ∧ wrapRow (cy + row) = p.1 ∧ wrapCol (cx + col) = p.2 := by
  simp only [spriteCells, List.mem_flatMap, List.mem_range, mem_rowCells]

/-- The eight columns of a row are distinct modulo 64. -/
theorem nodup_rowCells (cx cy row : Nat) (byte : Byte) : (rowCells cx cy row byte).Nodup := by
  refine List.Nodup.map_on (fun i hi j hj h => ?_) (List.nodup_range.filter _)
  have hi8 := List.mem_range.1 (List.mem_of_mem_filter hi)
  have hj8 := List.mem_range.1 (List.mem_of_mem_filter hj)
  exact wrapCol_inj cx i j (by omega) (by omega) (Prod.ext_iff.1 h).2

/-- No draw meets a cell twice: the rows of a sprite are distinct modulo 32 (R132). -/
theorem nodup_spriteCells (m : Memory) (base cx cy n : Nat) (hn : n ≤ 32) : (spriteCells m base cx cy n).Nodup := by
  refine List.nodup_flatMap.2 ⟨fun row _ => nodup_rowCells cx cy row _, ?_⟩
  refine List.nodup_range.imp_of_mem fun {i j} hi hj hij p hpi hpj => hij ?_
  obtain ⟨_, -, -, hri, -⟩ := (mem_rowCells ..).1 hpi
  obtain ⟨_, -, -, hrj, -⟩ := (mem_rowCells ..).1 hpj
  exact wrapRow_inj cy i j ((List.mem_range.1 hi).trans_le hn) ((List.mem_range.1 hj).trans_le hn) (hri.trans hrj.symm)

/-- The closed form of the coverage: the cells that the draw flips are those the sprite covers. -/
theorem mem_spriteCells_iff_covers (m : Memory) (base cx cy n : Nat) (hn : n ≤ 32) (r : Fin Config.displayH)
    (c : Fin Config.displayW) :
    (r, c) ∈ spriteCells m base cx cy n ↔ spriteCovers m base cx cy n r c = true := by
  simp only [mem_spriteCells, spriteCovers, Bool.and_eq_true, decide_eq_true_eq]
  constructor
  · rintro ⟨row, hrow, col, hcol, hbit, hr, hc⟩
    rw [(wrapRow_eq_iff cy row (by omega) r).1 hr, (wrapCol_eq_iff cx col (by omega) c).1 hc]
    exact ⟨⟨hrow, hcol⟩, hbit⟩
  · rintro ⟨⟨hrow, hcol⟩, hbit⟩
    exact ⟨_, hrow, _, hcol, hbit, (wrapRow_eq_iff cy _ (by omega) r).2 rfl,
      (wrapCol_eq_iff cx _ (by omega) c).2 rfl⟩

/-! ## The draw (R132) -/

/-- No sprite has more rows than the display. -/
theorem spriteRows_le (n : Nibble) : n.toNat ≤ 32 := n.isLt.le.trans (by decide)

/-- Every pixel is XORed with the sprite's bit on it. -/
theorem pixel_drawSprite (m : Memory) (base cx cy n : Nat) (hn : n ≤ 32) (fb : Display) (r : Fin Config.displayH)
    (c : Fin Config.displayW) :
    (drawSprite m base cx cy n fb).fb.pixel r c = (fb.pixel r c ^^ spriteCovers m base cx cy n r c) := by
  rw [drawSprite_eq, pixel_foldl_toggle _ (nodup_spriteCells m base cx cy n hn)]
  simp only [mem_spriteCells_iff_covers m base cx cy n hn, Bool.decide_eq_true]

/-- The draw meets a collision exactly when it turns some pixel from 1 to 0. -/
theorem collision_drawSprite (m : Memory) (base cx cy n : Nat) (hn : n ≤ 32) (fb : Display) :
    (drawSprite m base cx cy n fb).collision = true ↔
      ∃ r c, fb.pixel r c = true ∧ (drawSprite m base cx cy n fb).fb.pixel r c = false := by
  have hturned : ∀ a b : Bool, (a = true ∧ (a ^^ b) = false) ↔ (b = true ∧ a = true) := by decide
  simp only [pixel_drawSprite m base cx cy n hn, hturned, ← mem_spriteCells_iff_covers m base cx cy n hn]
  rw [drawSprite_eq, collision_foldl_toggle _ (nodup_spriteCells m base cx cy n hn)]
  simp

/-- Some pixel is under a set bit of the sprite exactly when the sprite has a byte other than 0. -/
theorem exists_spriteCovers_iff (m : Memory) (base cx cy n : Nat) (hn : n ≤ 32) :
    (∃ r c, spriteCovers m base cx cy n r c = true) ↔ ∃ row, row < n ∧ Memory.read m (base + row) ≠ 0 := by
  simp only [← mem_spriteCells_iff_covers m base cx cy n hn, mem_spriteCells]
  constructor
  · rintro ⟨_, _, row, hrow, col, _, hbit, -⟩
    refine ⟨row, hrow, fun hzero => ?_⟩
    rw [hzero, spriteBit] at hbit
    simp at hbit
  · rintro ⟨row, hrow, hne⟩
    obtain ⟨k, hk, hbit⟩ : ∃ k < 8, (Memory.read m (base + row)).getLsbD k = true := by
      by_contra hnone
      push Not at hnone
      exact hne (BitVec.eq_of_getLsbD_eq fun k hk => by simpa using hnone k hk)
    refine ⟨_, _, row, hrow, 7 - k, by omega, ?_, rfl, rfl⟩
    rwa [spriteBit, show 7 - (7 - k) = k by omega]

/-- A display is determined by its pixels. -/
theorem Display.ext_pixel {fb fb' : Display} (h : ∀ r c, fb.pixel r c = fb'.pixel r c) : fb = fb' :=
  Vector.ext fun r hr => Vector.ext fun c hc => h ⟨r, hr⟩ ⟨c, hc⟩

/-! ## The obligations -/

/-- Settles O42: the meaning is one write of the display, beside PC. -/
theorem clearBlanksDisplay : Obligations.ClearBlanksDisplay :=
  ⟨decode_encode .cls, fun _ => ⟨_, rfl, Display.pixel_clear, rfl⟩⟩

/-- Settles O43: a sprite has at most 15 rows, so that `pixel_drawSprite` and `collision_drawSprite` say what the draw
leaves in the display and in VF. -/
theorem drawXorsSpriteAndReportsCollision : Obligations.DrawXorsSpriteAndReportsCollision := by
  intro x y n s
  refine ⟨decode_encode (.drw x y n), _, rfl, fun r c => ?_, ?_, fun r hr => ?_, rfl⟩
  · exact pixel_drawSprite _ _ _ _ _ (spriteRows_le n) s.fb r c
  · rw [State.getV_setV_same]
    exact if_congr (collision_drawSprite _ _ _ _ _ (spriteRows_le n) s.fb) rfl rfl
  · rw [State.getV_setV_other _ _ _ _ hr, State.setFb_getV, State.advance_getV]

/-- Settles O44: the first draw keeps what the second reads beside the display, so that both XOR the same pixels. -/
theorem drawingTwiceRestoresDisplay : Obligations.DrawingTwiceRestoresDisplay := by
  intro x y n s t u hx hy hst htu
  obtain ⟨-, t', ht', hpixel, -, hregs, hframe⟩ := drawXorsSpriteAndReportsCollision x y n s
  obtain rfl : t' = t := Host.Outcome.next.inj (ht'.symm.trans hst)
  obtain ⟨-, u', hu', hpixel', hvf, -, -⟩ := drawXorsSpriteAndReportsCollision x y n t'
  obtain rfl : u' = u := Host.Outcome.next.inj (hu'.symm.trans htu)
  have hmem : t'.mem = s.mem := by rw [hframe]
  have hi : t'.i = s.i := by rw [hframe]
  rw [hmem, hi, hregs x hx, hregs y hy] at hpixel'
  have hrestored : ∀ r c, u'.fb.pixel r c = s.fb.pixel r c := fun r c => by
    rw [hpixel', hpixel, Bool.xor_assoc, Bool.xor_self, Bool.xor_false]
  have hturned : ∀ a b : Bool, ((a ^^ b) = true ∧ a = false) ↔ (b = true ∧ a = false) := by decide
  simp only [hrestored, hpixel, hturned] at hvf
  refine ⟨Display.ext_pixel hrestored, hvf, fun hclear => hvf.trans (if_congr ?_ rfl rfl)⟩
  simp only [hclear, and_true]
  exact exists_spriteCovers_iff _ _ _ _ _ (spriteRows_le n)

end Sys2Proof.Machine
end

section
/-! PROOF. Keypad, timers and the key wait (spec/45_timers_keys.md): the skips on a key, the timer moves, how a key wait
is entered, ended and kept up, and that a wait with no key down is a hang (R140-R149). -/

namespace Sys2Proof.Machine

/-! ## The keypad (R140, R146) -/

/-- A byte that names a key reads its state (R140). -/
theorem keyDown_of_eq (keys : Keypad) (b : Byte) (k : Fin Config.numKeys) (h : b.toNat = k.val) :
    keyDown keys b = keys[k.val] := by
  rw [keyDown, dif_pos (h ▸ k.isLt)]
  simp only [h]

/-- A byte above 0xF names no key and reads as up (R140). -/
theorem keyDown_of_gt (keys : Keypad) (b : Byte) (h : b.toNat > 0xF) : keyDown keys b = false :=
  dif_neg (Nat.not_lt_of_le h)

/-- The key that is down with every lower key up is the least one: of two such keys neither is below the other. -/
theorem lowestKey_eq_some (keys : Keypad) (k : Fin Config.numKeys) (hk : keys[k.val] = true)
    (hlow : ∀ j : Fin Config.numKeys, j < k → keys[j.val] = false) : lowestKey keys = some k := by
  cases h : lowestKey keys with
  | none => exact absurd hk (by simp [(lowestKey_none keys).1 h k])
  | some k' =>
    obtain ⟨hk', hlow'⟩ := lowestKey_some keys k' h
    have hge : ¬ k' < k := fun hlt => by simp [hlow k' hlt] at hk'
    have hle : ¬ k < k' := fun hlt => by simp [hlow' k hlt] at hk
    exact congrArg some (le_antisymm (not_lt.1 hle) (not_lt.1 hge))

/-! ## The key-wait step (R146) -/

theorem keyWaitStep_of_key (s : State) (k : Fin Config.numKeys) (h : lowestKey s.keys = some k) :
    s.keyWaitStep = s.endWait k := by
  rw [State.keyWaitStep, h]

theorem keyWaitStep_of_no_key (s : State) (h : lowestKey s.keys = none) : s.keyWaitStep = s := by
  rw [State.keyWaitStep, h]

/-- A key-wait step fetches nothing, so it is no Cxkk and ignores the host's byte. -/
theorem stepWith_awaiting (rnd : Byte) (s : State) (hm : s.mode = .awaitingKey) :
    stepWith rnd s = .next s.keyWaitStep := by
  have hnot : ¬ s.mode = .running := by rw [hm]; decide
  rw [stepWith_eq_step rnd s fun h => hnot h.1, step_awaiting s hm]

/-! ## The hang (R149; spec/93, row 13) -/

/-- The timers are frozen while the core awaits a key (R149, R160). -/
theorem State.tick60Hz_awaiting (s : State) (hm : s.mode = .awaitingKey) : s.tick60Hz = s := by
  rw [State.tick60Hz, hm]

/-- A hung state is kept by every command that gives no input. -/
theorem State.Hung.command {s : State} (hs : s.Hung) (font : Vector Byte Config.fontSize) (c : Command)
    (hc : c.givesNoInput = true) : ∃ r, s.command font c = .next (.ready s, r) := by
  obtain ⟨hm, hkeys⟩ := hs
  cases c with
  | init | loadRom | setKeys => cases hc
  | step rnd =>
    have hstep : stepWith rnd s = .next s := by rw [stepWith_awaiting rnd s hm, keyWaitStep_of_no_key s hkeys]
    exact ⟨_, s.command_step font rnd s hstep⟩
  | tick60Hz => exact ⟨.none, by rw [State.command, s.tick60Hz_awaiting hm]⟩
  | getDisplay | isSoundActive | awaitingKey => exact ⟨_, rfl⟩

/-- A first command that is answered, and the answered run of the rest from where it leaves the block, make a run. -/
theorem Block.run_cons_of_next {font : Vector Byte Config.fontSize} {c : Command} {cs : List Command}
    {b b₁ b₂ : Block} {r : Reply} {rs : List Reply} (hc : b.command font c = .next (b₁, r))
    (hrun : Block.run font cs b₁ = .next (b₂, rs)) : Block.run font (c :: cs) b = .next (b₂, r :: rs) := by
  simp only [Block.run, hc, hrun]

/-! ## The timers (R143, R147, R148, R161) -/

theorem State.isSoundActive_iff (s : State) : s.isSoundActive = true ↔ s.st ≠ 0 := by
  rw [State.isSoundActive, decide_eq_true_eq]
  exact Nat.pos_iff_ne_zero.trans (BitVec.toNat_ne_iff_ne (y := 0))

/-- A write of DT: DT and PC, and nothing else. -/
theorem State.advance_setDt (s : State) (b : Byte) :
    s.advance.setDt b = { s with dt := b, pc := BitVec.ofNat 16 ((s.pc.toNat + 2) % 4096) } := rfl

/-- A write of ST: ST and PC, and nothing else. -/
theorem State.advance_setSt (s : State) (b : Byte) :
    s.advance.setSt b = { s with st := b, pc := BitVec.ofNat 16 ((s.pc.toNat + 2) % 4096) } := rfl

/-! ## Skips on a key (R141, R142) -/

/-- Ex9E leaves PC at `p + 4` when the key that V[x] names is down, at `p + 2` when not. -/
theorem exec_skp (x : Reg) (s : State) {down : Bool} (h : keyDown s.keys (s.getV x) = down) :
    exec (.skp x) s = .next { s with pc := wrap12 (s.pc.toNat + if down then 4 else 2) } := by
  rw [exec, execSkp, h, State.advance_skipIf]

/-- ExA1 leaves PC at `p + 2` when the key that V[x] names is down, at `p + 4` when not. -/
theorem exec_sknp (x : Reg) (s : State) {down : Bool} (h : keyDown s.keys (s.getV x) = down) :
    exec (.sknp x) s = .next { s with pc := wrap12 (s.pc.toNat + if down then 2 else 4) } := by
  rw [exec, execSknp, h, State.advance_skipIf]
  cases down <;> rfl

/-! ## The obligations -/

/-- Settles O9: the step with and without the host's byte is `State.keyWaitStep`, which ends the wait on the least key
that is down (`lowestKey_eq_some`), and without one changes nothing. -/
theorem keyWaitStepTakesLowestKey : Obligations.KeyWaitStepTakesLowestKey := by
  intro s rnd hm
  have hstepWith := stepWith_awaiting rnd s hm
  have hstep := step_awaiting s hm
  refine ⟨stepOpcode_not_running s (by rw [hm]; decide), fun k hk hlow => ?_, fun hup => ?_⟩
  · rw [keyWaitStep_of_key s k (lowestKey_eq_some s.keys k hk hlow)] at hstepWith hstep
    exact ⟨s.endWait k, hstepWith, hstep, stepResult_of_awaited rfl hm, rfl⟩
  · rw [keyWaitStep_of_no_key s ((lowestKey_none s.keys).2 hup)] at hstepWith hstep
    exact ⟨hstepWith, hstep, stepResult_of_awaiting hm⟩

/-- Settles O48, by induction on the list of commands: each is answered and keeps the state (`State.Hung.command`). -/
theorem waitWithoutKeyHangs : Obligations.WaitWithoutKeyHangs := by
  intro font cs s hs hcs
  induction cs with
  | nil => exact ⟨[], rfl, rfl⟩
  | cons c cs ih =>
    obtain ⟨hc, hrest⟩ := List.forall_mem_cons.1 hcs
    obtain ⟨r, hcommand⟩ := hs.command font c hc
    obtain ⟨rs, hrun, hlen⟩ := ih hrest
    exact ⟨r :: rs, Block.run_cons_of_next hcommand hrun, congrArg Nat.succ hlen⟩

/-- Settles O45: the skips are decided by `keyDown`, which reads the key that V[x] names (`keyDown_of_eq`), or none
(`keyDown_of_gt`). -/
theorem skipsOnKeys : Obligations.SkipsOnKeys := by
  refine fun x s => ⟨decode_of_encXkk (.skp x) rfl rfl, decode_of_encXkk (.sknp x) rfl rfl,
    fun k hk => ?_, fun hgt => ?_⟩
  · have hdown := keyDown_of_eq s.keys (s.getV x) k hk
    exact ⟨exec_skp x s hdown, exec_sknp x s hdown⟩
  · have hup := keyDown_of_gt s.keys (s.getV x) hgt
    exact ⟨exec_skp x s hup, exec_sknp x s hup⟩

/-- Settles O46: each meaning is one write beside PC (`State.advance_setV`, `State.advance_setDt`,
`State.advance_setSt`), and the sound is on while ST is not 0 (`State.isSoundActive_iff`). -/
theorem timerMoves : Obligations.TimerMoves := fun x s =>
  ⟨decode_of_encXkk (.ldVxDt x) rfl rfl, decode_of_encXkk (.ldDtVx x) rfl rfl, decode_of_encXkk (.ldStVx x) rfl rfl,
    congrArg Host.Outcome.next (s.advance_setV x s.dt), congrArg Host.Outcome.next (s.advance_setDt (s.getV x)),
    _, rfl, s.advance_setSt (s.getV x), State.isSoundActive_iff _⟩

/-- Settles O47: the entry is `State.beginWait`, which reads no key, and a step that ends in AWAITING_KEY is Waiting. -/
theorem keyWaitEntry : Obligations.KeyWaitEntry := fun x s =>
  ⟨decode_of_encXkk (.ldVxK x) rfl rfl, s.beginWait x, rfl, rfl, stepResult_of_awaiting rfl⟩

end Sys2Proof.Machine
end

section
/-! PROOF. Fatal errors and the host's commands (spec/60_exceptions.md): what raises a fatal error and what it leaves
(R153), the tick (R160), and the keypad and read commands (R161-R164). -/

namespace Sys2Proof.Machine

/-! ## Fatal errors (R152, R153) -/

/-- A return on an empty stack ends in the fatal state and no other. -/
theorem exec_ret_eq_raiseFatal {s t : State} (h : exec .ret s = .next t) (h0 : s.sp.val = 0) :
    t = s.raiseFatal .stackUnderflow :=
  Host.Outcome.next.inj (h.symm.trans (exec_ret_of_empty s h0))

/-- A call on a full stack ends in the fatal state and no other. -/
theorem exec_call_eq_raiseFatal {nnn : Addr} {s t : State} (h : exec (.call nnn) s = .next t)
    (hfull : s.sp.val = Config.stackDepth) : t = s.raiseFatal .stackOverflow :=
  Host.Outcome.next.inj (h.symm.trans (exec_call_of_full nnn s hfull))

/-- An instruction that enters HALTED is a return on an empty stack or a call on a full one. -/
theorem exec_fatal_cause {i : Instr} {s t : State} (hm : s.mode = .running) (h : exec i s = .next t)
    (ht : t.mode = .halted) :
    (i = .ret ∧ s.sp.val = 0) ∨ ∃ nnn, i = .call nnn ∧ s.sp.val = Config.stackDepth := by
  have hne : t.mode ≠ s.mode := by rw [ht, hm]; decide
  obtain ⟨x, -, rfl⟩ | ⟨-, hcause⟩ := exec_mode_ne i s t h hne
  · cases ht
  · exact hcause

/-! ## The tick (R160) -/

/-- A timer counts down by one and saturates at 0, as subtraction of natural numbers does. -/
theorem tickTimer_eq (b : Byte) : tickTimer b = BitVec.ofNat 8 (b.toNat - 1) := by
  unfold tickTimer
  split
  · next hpos => bv_omega
  · next hzero => bv_omega

/-- Outside AWAITING_KEY a tick counts both timers down and writes nothing else. -/
theorem State.tick60Hz_counting (s : State) (hm : s.mode ≠ .awaitingKey) :
    s.tick60Hz = { s with dt := BitVec.ofNat 8 (s.dt.toNat - 1), st := BitVec.ofNat 8 (s.st.toNat - 1) } := by
  rw [← tickTimer_eq, ← tickTimer_eq]
  unfold State.tick60Hz
  split
  · next hwait => exact absurd hwait hm
  · rfl

/-! ## The read commands (R6, R161, R163, R164) -/

/-- The sound is on exactly while ST is not 0 (`State.isSoundActive_iff`), as a Boolean. -/
theorem State.isSoundActive_eq (s : State) : s.isSoundActive = decide (s.st ≠ 0) :=
  Bool.eq_iff_iff.2 (s.isSoundActive_iff.trans decide_eq_true_iff.symm)

/-- A read leaves the state as it is. -/
theorem State.command_readsOnly (font : Vector Byte Config.fontSize) (s : State) (c : Command) (b : Block) (r : Reply)
    (hc : c.readsOnly = true) (h : s.command font c = .next (b, r)) : b = .ready s := by
  cases c with
  | getDisplay | isSoundActive | awaitingKey => cases h; rfl
  | init | loadRom | step | tick60Hz | setKeys => cases hc

/-! ## The obligations -/

/-- Settles O17: a HALTED next state has one of the two causes (`exec_fatal_cause`), and each cause leads to its exact
fatal state, which is HALTED (`exec_ret_eq_raiseFatal`, `exec_call_eq_raiseFatal`). -/
theorem fatalCausesAreExactlyTwo : Obligations.FatalCausesAreExactlyTwo := by
  refine fun i s t hm h => ⟨⟨exec_fatal_cause hm h, ?_⟩, ?_, ?_⟩
  · rintro (⟨rfl, h0⟩ | ⟨nnn, rfl, hfull⟩)
    · rw [exec_ret_eq_raiseFatal h h0, State.raiseFatal_mode]
    · rw [exec_call_eq_raiseFatal h hfull, State.raiseFatal_mode]
  · rintro rfl h0
    exact exec_ret_eq_raiseFatal h h0
  · rintro nnn rfl hfull
    exact exec_call_eq_raiseFatal h hfull

/-- Settles O49: the tick is `State.tick60Hz`, frozen by `State.tick60Hz_awaiting`, counting by
`State.tick60Hz_counting`. -/
theorem tickCountsTimersDown : Obligations.TickCountsTimersDown := by
  refine fun font s => ⟨fun hm => ?_, fun hm => ?_⟩
  · rw [State.command, s.tick60Hz_awaiting hm]
  · rw [State.command, s.tick60Hz_counting hm]

/-- Settles O50: each reply is the command's definition, the sound's by `State.isSoundActive_eq`; the reads keep the
state by `State.command_readsOnly`. -/
theorem keypadAndReadCommands : Obligations.KeypadAndReadCommands := by
  refine fun font s => ⟨fun keys => rfl, ?_, rfl, rfl, s.command_readsOnly font⟩
  rw [State.command, State.isSoundActive_eq]

end Sys2Proof.Machine
end

section
/-! PROOF. ROM loading (spec/70_reset_and_hazards.md R171; spec/60_exceptions.md R155): an over-long ROM is refused before
any write, any other is one write of consecutive bytes from 0x200 upward. -/

namespace Sys2Proof.Machine

/-! ## The two answers of `loadRom` (R171) -/

theorem State.loadRom_of_too_long (s : State) (bytes : List Byte) (h : bytes.length > Config.maxRom) :
    s.loadRom bytes = (.tooLarge, s) :=
  if_pos h

theorem State.loadRom_of_fits (s : State) (bytes : List Byte) (h : bytes.length ≤ Config.maxRom) :
    s.loadRom bytes = (.ok, s.setMem (Memory.writeBytes s.mem Config.progBase bytes)) :=
  if_neg (Nat.not_lt.2 h)

/-! ## A ROM that fits does not wrap past the last address (R9, R41) -/

/-- Each byte of a ROM that fits is read back at its own address. -/
theorem Memory.read_rom (m : Memory) (bytes : List Byte) (hm : Memory.wf m = true)
    (hfits : bytes.length ≤ Config.maxRom) (j : Nat) (h : j < bytes.length) :
    Memory.read (Memory.writeBytes m Config.progBase bytes) (Config.progBase + j) = bytes[j] :=
  Memory.read_writeBytes_at m Config.progBase _ j bytes hm (hfits.trans (Nat.sub_le _ _)) h rfl

/-- An address below 0x200, or past the end of a ROM that fits, reads as before. -/
theorem Memory.read_outside_rom (m : Memory) (bytes : List Byte) (hfits : bytes.length ≤ Config.maxRom) (a : Nat)
    (ha : a < Config.memSize) (hout : a < Config.progBase ∨ Config.progBase + bytes.length ≤ a) :
    Memory.read (Memory.writeBytes m Config.progBase bytes) a = Memory.read m a := by
  refine Memory.read_writeBytes_other m Config.progBase a bytes fun k hk => ?_
  have hinRange : Config.progBase + k < Config.memSize := by
    simp only [Config.maxRom, Config.memSize, Config.progBase] at hfits ⊢
    omega
  rw [Nat.mod_eq_of_lt ha, Nat.mod_eq_of_lt hinRange]
  omega

/-! ## The obligation -/

/-- Settles O52: the two answers are `State.loadRom_of_too_long` and `State.loadRom_of_fits`, and what the second leaves
in memory is `Memory.read_rom` and `Memory.read_outside_rom`. -/
theorem loadRomCopiesOrRejects : Obligations.LoadRomCopiesOrRejects := by
  refine fun font s bytes hm =>
    ⟨fun hlong => ?_, fun hfits => ⟨Memory.writeBytes s.mem Config.progBase bytes, ?_, ?_, ?_⟩⟩
  · rw [State.command, s.loadRom_of_too_long bytes hlong]
  · rw [State.command, s.loadRom_of_fits bytes hfits, State.setMem]
  · exact Memory.read_rom s.mem bytes hm hfits
  · exact Memory.read_outside_rom s.mem bytes hfits

end Sys2Proof.Machine
end
